-- ==== Sys2Proof/Word.lean ====
section
/-!
DEFINITION. The word types of the trimps core. Their widths are the fixed parameters of 00_scope.md rule R5 and the field
widths of 30_encoding.md rule R43. BitVec arithmetic wraps, which is the "mod 2^32" of rule R7 and the "mod 2^30" of rule R15.
-/

namespace Sys2Proof

/-- A bits32 value (R6): a register, an instruction word, a data address. -/
abbrev Word := BitVec 32

/-- One byte of the Memory or of the program file. -/
abbrev Byte := BitVec 8

/-- A word address of the program counter, `W` (R15). -/
abbrev WordAddr := BitVec 30

/-- A 5-bit register index (R12, R43). -/
abbrev Reg := BitVec 5

/-- The 5-bit shift amount `shamt` (R43). -/
abbrev Shamt := BitVec 5

/-- The 16-bit `immediate16` (R43). -/
abbrev Imm16 := BitVec 16

/-- The 26-bit `jump_target26` (R43). -/
abbrev Target26 := BitVec 26

end Sys2Proof
end

