-- ==== Sys2Proof/Syntax.lean ====
section
/-!
DEFINITION. The instruction set: one constructor per row of spec/opcode_table.json (30_encoding.md rule R47), in the table's
order. An operand has the type of its field (R43), and operands stand in the assembler order of R52. A field the row does not
name (R48) is no operand. The words the table does not list (R49) are not instructions here: the decoder answers `nopUnlisted`
for them, and a step on one is the no-op of R76.
-/

namespace Sys2Proof

inductive Instr where
  /-- AND (R56). -/
  | and (rd rs rt : Reg)
  /-- OR (R57). -/
  | or (rd rs rt : Reg)
  /-- XOR, funct 0x27 (R58). -/
  | xor (rd rs rt : Reg)
  /-- ADD (R59). -/
  | add (rd rs rt : Reg)
  /-- SUB (R60). -/
  | sub (rd rs rt : Reg)
  /-- SLL (R61). -/
  | sll (rd rt : Reg) (shamt : Shamt)
  /-- SRL (R62). -/
  | srl (rd rt : Reg) (shamt : Shamt)
  /-- SLT (R63). -/
  | slt (rd rs rt : Reg)
  /-- BEQ (R64). -/
  | beq (rs rt : Reg) (imm : Imm16)
  /-- LW (R66). -/
  | lw (rt rs : Reg) (imm : Imm16)
  /-- SW (R67). -/
  | sw (rt rs : Reg) (imm : Imm16)
  /-- ANDI (R69). -/
  | andi (rt rs : Reg) (imm : Imm16)
  /-- ORI (R70). -/
  | ori (rt rs : Reg) (imm : Imm16)
  /-- ADDI (R71). -/
  | addi (rt rs : Reg) (imm : Imm16)
  /-- J (R72). -/
  | j (target : Target26)
deriving DecidableEq, Repr

end Sys2Proof
end

