-- ==== Sys2Proof/WellFormed.lean ====
section
/-!
DEFINITION. What makes an instruction term well-formed: every operand fits its field (30_encoding.md rules R43, R45). An operand of
`Instr` has the width of its field in its type, so every `Instr` passes (Laws/PerInstr.lean); the checks bite on the operands as
an assembler writes them, plain numbers, which is what `AsmInstr` (R52) holds. The same index check guards the host's register
calls (60_exceptions.md rule R97).
-/

namespace Sys2Proof

/-- A register index is in 0..31 (R12, R97). -/
def regOk (n : Nat) : Bool := decide (n < 32)

/-- A shift amount is in 0..31 (R45, R61). -/
def shamtOk (n : Nat) : Bool := decide (n < 32)

/-- A sign-extended immediate is in -32768..32767 (R45, R53). -/
def simm16Ok (n : Int) : Bool := decide (-32768 ≤ n) && decide (n ≤ 32767)

/-- A zero-extended immediate is in 0..0xFFFF (R45). -/
def uimm16Ok (n : Nat) : Bool := decide (n < 65536)

/-- A jump field is in 0..0x3FFFFFF (R45). -/
def target26Ok (n : Nat) : Bool := decide (n < 67108864)

/-- Every operand of an instruction fits its field. -/
def Instr.wellFormed : Instr → Bool
  | .and rd rs rt | .or rd rs rt | .xor rd rs rt | .add rd rs rt | .sub rd rs rt | .slt rd rs rt =>
    regOk rd.toNat && regOk rs.toNat && regOk rt.toNat
  | .sll rd rt shamt | .srl rd rt shamt => regOk rd.toNat && regOk rt.toNat && shamtOk shamt.toNat
  | .beq rs rt imm | .lw rt rs imm | .sw rt rs imm | .addi rt rs imm =>
    regOk rs.toNat && regOk rt.toNat && simm16Ok imm.toInt
  | .andi rt rs imm | .ori rt rs imm => regOk rt.toNat && regOk rs.toNat && uimm16Ok imm.toNat
  | .j target => target26Ok target.toNat

/-- An assembler line (R52): operands are the numbers a programmer writes. Notation only: it gives no instruction a meaning. -/
inductive AsmInstr where
  | and (rd rs rt : Nat)
  | or (rd rs rt : Nat)
  | xor (rd rs rt : Nat)
  | add (rd rs rt : Nat)
  | sub (rd rs rt : Nat)
  | sll (rd rt shamt : Nat)
  | srl (rd rt shamt : Nat)
  | slt (rd rs rt : Nat)
  | beq (rs rt : Nat) (off : Int)
  | lw (rt : Nat) (off : Int) (rs : Nat)
  | sw (rt : Nat) (off : Int) (rs : Nat)
  | andi (rt rs imm : Nat)
  | ori (rt rs imm : Nat)
  | addi (rt rs : Nat) (imm : Int)
  | j (target : Nat)
deriving DecidableEq, Repr

/-- Every operand of an assembler line fits its field. -/
def AsmInstr.wellFormed : AsmInstr → Bool
  | .and rd rs rt | .or rd rs rt | .xor rd rs rt | .add rd rs rt | .sub rd rs rt | .slt rd rs rt =>
    regOk rd && regOk rs && regOk rt
  | .sll rd rt shamt | .srl rd rt shamt => regOk rd && regOk rt && shamtOk shamt
  | .beq rs rt off => regOk rs && regOk rt && simm16Ok off
  | .lw rt off rs | .sw rt off rs => regOk rt && simm16Ok off && regOk rs
  | .andi rt rs imm | .ori rt rs imm => regOk rt && regOk rs && uimm16Ok imm
  | .addi rt rs imm => regOk rt && regOk rs && simm16Ok imm
  | .j target => target26Ok target

end Sys2Proof
end

