-- ==== Sys2Proof/Decode.lean ====
section
/-!
DEFINITION. The decoder and the encoder (30_encoding.md rules R42 to R51). Decoding is total: every word is one of the fifteen
instructions or `nopUnlisted` (R46). The opcode map of R47 is written a second time as rows of match and mask; an obligation says
that the two agree.
-/

namespace Sys2Proof

/-- What a word decodes to: "exactly one of the sixteen results" (R46). -/
inductive Decoded where
  | listed (i : Instr)
  /-- The word is not in the table (R49); the core executes it as a no-op (R76). -/
  | nopUnlisted
deriving DecidableEq, Repr

/-! ## The fields of R43 -/

def opcodeOf (inst : Word) : BitVec 6 := inst.extractLsb' 26 6
def rsOf (inst : Word) : Reg := inst.extractLsb' 21 5
def rtOf (inst : Word) : Reg := inst.extractLsb' 16 5
def rdOf (inst : Word) : Reg := inst.extractLsb' 11 5
def shamtOf (inst : Word) : Shamt := inst.extractLsb' 6 5
/-- `funct`, the full six bits (R43, 90_conflicts.md C4). -/
def functOf (inst : Word) : BitVec 6 := inst.extractLsb' 0 6
def immOf (inst : Word) : Imm16 := inst.extractLsb' 0 16
def targetOf (inst : Word) : Target26 := inst.extractLsb' 0 26

/-! ## Decode dispatch (R46) -/

/-- Opcode 0x00: dispatch on `funct`. XOR is 0x27 and 0x26 is unlisted (R51). Ignored fields are not looked at (R48). -/
def decodeRType (inst : Word) : Decoded :=
  let funct := functOf inst
  if funct = 0x24#6 then .listed (.and (rdOf inst) (rsOf inst) (rtOf inst))
  else if funct = 0x25#6 then .listed (.or (rdOf inst) (rsOf inst) (rtOf inst))
  else if funct = 0x27#6 then .listed (.xor (rdOf inst) (rsOf inst) (rtOf inst))
  else if funct = 0x20#6 then .listed (.add (rdOf inst) (rsOf inst) (rtOf inst))
  else if funct = 0x22#6 then .listed (.sub (rdOf inst) (rsOf inst) (rtOf inst))
  else if funct = 0x00#6 then .listed (.sll (rdOf inst) (rtOf inst) (shamtOf inst))
  else if funct = 0x02#6 then .listed (.srl (rdOf inst) (rtOf inst) (shamtOf inst))
  else if funct = 0x2a#6 then .listed (.slt (rdOf inst) (rsOf inst) (rtOf inst))
  else .nopUnlisted

/-- The decoder of R46. -/
def decode (inst : Word) : Decoded :=
  let opcode := opcodeOf inst
  if opcode = 0x00#6 then decodeRType inst
  else if opcode = 0x04#6 then .listed (.beq (rsOf inst) (rtOf inst) (immOf inst))
  else if opcode = 0x23#6 then .listed (.lw (rtOf inst) (rsOf inst) (immOf inst))
  else if opcode = 0x2b#6 then .listed (.sw (rtOf inst) (rsOf inst) (immOf inst))
  else if opcode = 0x0c#6 then .listed (.andi (rtOf inst) (rsOf inst) (immOf inst))
  else if opcode = 0x0d#6 then .listed (.ori (rtOf inst) (rsOf inst) (immOf inst))
  else if opcode = 0x08#6 then .listed (.addi (rtOf inst) (rsOf inst) (immOf inst))
  else if opcode = 0x02#6 then .listed (.j (targetOf inst))
  else .nopUnlisted

/-! ## The opcode map as match and mask (R47) -/

/-- One row of R47: a word selects it iff `(inst & mask) == bits`, and it then means `build inst`. -/
structure OpcodeRow where
  bits : Word
  mask : Word
  build : Word → Instr

/-- The rows of opcode 0x00, in the table's order. -/
def opcodeRowsR : List OpcodeRow :=
  [ ⟨0x00000024#32, 0xFC00003F#32, fun w => .and (rdOf w) (rsOf w) (rtOf w)⟩,
    ⟨0x00000025#32, 0xFC00003F#32, fun w => .or (rdOf w) (rsOf w) (rtOf w)⟩,
    ⟨0x00000027#32, 0xFC00003F#32, fun w => .xor (rdOf w) (rsOf w) (rtOf w)⟩,
    ⟨0x00000020#32, 0xFC00003F#32, fun w => .add (rdOf w) (rsOf w) (rtOf w)⟩,
    ⟨0x00000022#32, 0xFC00003F#32, fun w => .sub (rdOf w) (rsOf w) (rtOf w)⟩,
    ⟨0x00000000#32, 0xFC00003F#32, fun w => .sll (rdOf w) (rtOf w) (shamtOf w)⟩,
    ⟨0x00000002#32, 0xFC00003F#32, fun w => .srl (rdOf w) (rtOf w) (shamtOf w)⟩,
    ⟨0x0000002A#32, 0xFC00003F#32, fun w => .slt (rdOf w) (rsOf w) (rtOf w)⟩ ]

/-- The rows selected by the opcode alone, in the table's order. -/
def opcodeRowsIJ : List OpcodeRow :=
  [ ⟨0x10000000#32, 0xFC000000#32, fun w => .beq (rsOf w) (rtOf w) (immOf w)⟩,
    ⟨0x8C000000#32, 0xFC000000#32, fun w => .lw (rtOf w) (rsOf w) (immOf w)⟩,
    ⟨0xAC000000#32, 0xFC000000#32, fun w => .sw (rtOf w) (rsOf w) (immOf w)⟩,
    ⟨0x30000000#32, 0xFC000000#32, fun w => .andi (rtOf w) (rsOf w) (immOf w)⟩,
    ⟨0x34000000#32, 0xFC000000#32, fun w => .ori (rtOf w) (rsOf w) (immOf w)⟩,
    ⟨0x20000000#32, 0xFC000000#32, fun w => .addi (rtOf w) (rsOf w) (immOf w)⟩,
    ⟨0x08000000#32, 0xFC000000#32, fun w => .j (targetOf w)⟩ ]

/-- The opcode map of R47. -/
def opcodeTable : List OpcodeRow := opcodeRowsR ++ opcodeRowsIJ

/-- A word selects a row (R47). -/
def OpcodeRow.selects (row : OpcodeRow) (inst : Word) : Bool := inst &&& row.mask == row.bits

/-! ## The encoder, from the layouts of R44 -/

/-- R-type layout (R44), opcode 0x00. -/
def encodeR (rs rt rd : Reg) (shamt : Shamt) (funct : BitVec 6) : Word :=
  0x00#6 ++ rs ++ rt ++ rd ++ shamt ++ funct

/-- I-type layout (R44). -/
def encodeI (opcode : BitVec 6) (rs rt : Reg) (imm : Imm16) : Word :=
  opcode ++ rs ++ rt ++ imm

/-- J-type layout (R44), opcode 0x02. -/
def encodeJ (target : Target26) : Word := 0x02#6 ++ target

/-- The word of an instruction. DESIGN CHOICE: a field the row ignores (R48) is written as zero (assumption 13). -/
def encode : Instr → Word
  | .and rd rs rt => encodeR rs rt rd 0 0x24#6
  | .or rd rs rt => encodeR rs rt rd 0 0x25#6
  | .xor rd rs rt => encodeR rs rt rd 0 0x27#6
  | .add rd rs rt => encodeR rs rt rd 0 0x20#6
  | .sub rd rs rt => encodeR rs rt rd 0 0x22#6
  | .sll rd rt shamt => encodeR 0 rt rd shamt 0x00#6
  | .srl rd rt shamt => encodeR 0 rt rd shamt 0x02#6
  | .slt rd rs rt => encodeR rs rt rd 0 0x2a#6
  | .beq rs rt imm => encodeI 0x04#6 rs rt imm
  | .lw rt rs imm => encodeI 0x23#6 rs rt imm
  | .sw rt rs imm => encodeI 0x2b#6 rs rt imm
  | .andi rt rs imm => encodeI 0x0c#6 rs rt imm
  | .ori rt rs imm => encodeI 0x0d#6 rs rt imm
  | .addi rt rs imm => encodeI 0x08#6 rs rt imm
  | .j target => encodeJ target

/-- The bits of a word its instruction depends on: all but the fields R48 ignores. -/
def significantMask : Instr → Word
  | .and .. | .or .. | .xor .. | .add .. | .sub .. | .slt .. => 0xFFFFF83F#32
  | .sll .. | .srl .. => 0xFC1FFFFF#32
  | .beq .. | .lw .. | .sw .. | .andi .. | .ori .. | .addi .. | .j .. => 0xFFFFFFFF#32

/-! ## The host's table words -/

/-- The instruction word whose low `nbits` bits are `w`'s and whose other bits are 0. An instruction has no byte order of its own
once it stands in the image (R30), so the word is the number. -/
def tableWord (nbits w : Nat) : Word := BitVec.ofNat 32 (w % 2 ^ nbits)

/-- What the decoder reads from a word of the opcode table. -/
def decodeTableWord (nbits w : Nat) : Option Instr :=
  match decode (tableWord nbits w) with
  | .listed i => some i
  | .nopUnlisted => none

end Sys2Proof
end

