-- ==== Sys2Proof/Config.lean ====
section
/-!
DEFINITION. The parameters of 00_scope.md rule R5. The spec gives them to the model as arguments; `step` takes only a state, so
they stand in the state as data no operation changes (assumption 1). A statement for every state is then a statement for every
value of the parameters. INIT_GPR is an argument of `State.construct`, since nothing reads it after construction. No opaque
constant is needed: the spec leaves no result of an instruction undefined.
-/

namespace Sys2Proof

/-- `MEM_BYTE_ORDER` and `HOST_BYTE_ORDER` (R5, R30, R103). -/
inductive ByteOrder where
  | little
  | big
deriving DecidableEq, Repr

/-- `SLT_MODE` (R5, R63). -/
inductive SltMode where
  | unsigned
  | signed
deriving DecidableEq, Repr

/-- `J_BASE` (R5, R72). -/
inductive JBase where
  | absolute
  | imageRelative
deriving DecidableEq, Repr

/-- The parameters of one core. -/
structure CoreConfig where
  /-- `HOST_BYTE_ORDER`. -/
  hostOrder : ByteOrder
  /-- `SLT_MODE`. -/
  sltMode : SltMode
  /-- `J_BASE`. -/
  jBase : JBase
deriving DecidableEq, Repr

/-- The parameters of one Memory. -/
structure MemConfig where
  /-- `MEM_BASE`. -/
  base : Word
  /-- `MEM_SIZE`, at most 2^32 (kept by the invariant of Safety.lean). -/
  size : Nat
  /-- `MEM_BYTE_ORDER`. -/
  order : ByteOrder
deriving DecidableEq, Repr

/-- The reference values of R5: `HOST_BYTE_ORDER` little (D8, assumption 4), `SLT_MODE` unsigned (D4, assumption 5), `J_BASE`
absolute (D3, assumption 6). -/
def CoreConfig.reference : CoreConfig :=
  { hostOrder := .little, sltMode := .unsigned, jBase := .absolute }

/-- `MEM_BYTE_ORDER` has the reference value little (D7, assumption 3). DESIGN CHOICE: R5 gives no value of `MEM_BASE` and
`MEM_SIZE`; the model's reference Memory backs the whole data address space (assumption 2). -/
def MemConfig.reference : MemConfig :=
  { base := 0, size := 2 ^ 32, order := .little }

/-- `INIT_GPR`'s reference value, all zero (D9, assumption 7). -/
def initGprReference : Vector Word 32 := Vector.replicate 32 0

end Sys2Proof
end

