-- ==== Sys2Proof/Machine/State.lean ====
section
/-!
DEFINITION. The state of the trimps core and of the block around it (10_state.md rules R12 to R23, 20_memory.md rule R24), as plain
data, and its value right after construction, the core's only reset (R23, R101). The core has no flags (R19), no other register
file (R21), no mode (R89) and nothing saved by a trap (R87), so no field stands for them.
-/

namespace Sys2Proof.Machine

/-- The reasons a step can stop with a fault: none. "The core raises no synchronous exception" (R83), takes no interrupt (R85), and
"every cycle completes" (R87). -/
inductive Fault where
deriving DecidableEq, Repr

/-- The reasons a step can be refused. -/
inductive Refusal where
  /-- Raised by an arm of `exec` for an instruction that has no meaning yet, by its mnemonic. Safe: the model stops where the
  hardware goes on. No arm answers it now. -/
  | notModelled (mnemonic : String)
deriving DecidableEq, Repr

/-- `CLK`, the Clock State (R20). -/
inductive ClockState where
  | stopped
  | running
deriving DecidableEq, Repr

/-- An agent that calls a Memory's accessors (R10): a core, or a calling context of the host. -/
inductive Agent where
  | core (n : Nat)
  | host (n : Nat)
deriving DecidableEq, Repr

/-- The memory device (R24): its parameters, its bytes and its lock. -/
structure Memory where
  /-- `MEM_BASE`, `MEM_SIZE`, `MEM_BYTE_ORDER`. -/
  cfg : MemConfig
  /-- The bytes that are not 0, keyed by the integer address `MEM_BASE + offset`, strictly rising. -/
  cells : List Host.Cell
  /-- The lock of R33: the agent inside an accessor, or none. -/
  lock : Option Agent
deriving DecidableEq, Repr

/-- The machine. -/
structure State where
  /-- `HOST_BYTE_ORDER`, `SLT_MODE`, `J_BASE` (R5). -/
  cfg : CoreConfig
  /-- `GPR[0..31]` (R12). Index 0 is never read (R13). -/
  gpr : Vector Word 32
  /-- `W` (R15). -/
  w : WordAddr
  /-- `IMG` (R18). Its length is `PSIZE`. -/
  image : List Word
  /-- `PS`, the byte address `program_start` (R18). -/
  ps : Word
  /-- `CLK` (R20). -/
  clk : ClockState
  /-- `FREQ` (R20); 0 is "not set". -/
  freq : BitVec 32
  /-- `ICOUNT` (R20, R90). -/
  icount : BitVec 64
  /-- `STOP_REQ` (R22). -/
  stopReq : Bool
  /-- The Memory, private or shared (R24). -/
  mem : Memory
deriving DecidableEq, Repr

/-- A fresh Memory: every byte 0 (R24), nobody inside an accessor. -/
def Memory.fresh (cfg : MemConfig) : Memory :=
  { cfg := cfg, cells := [], lock := none }

/-- The core right after construction with a private Memory, at the reference parameters (R23, R101). Registers r1..r31 at INIT_GPR's
reference value (assumption 7); W, IMG, PS, FREQ and STOP_REQ by D10 (assumption 8); ICOUNT by D16 (assumption 20); MEM_BASE and
MEM_SIZE are a DESIGN CHOICE (assumption 2). -/
def State.reset : State :=
  { cfg := CoreConfig.reference
    gpr := initGprReference
    w := 0
    image := []
    ps := 0
    clk := .stopped
    freq := 0
    icount := 0
    stopReq := false
    mem := Memory.fresh MemConfig.reference }

end Sys2Proof.Machine
end

