-- ==== Sys2Proof/Machine/Ops.lean ====
section
/-!
DEFINITION. The named operations over registers, the program counter, the counter, the program image and the memory device
(10_state.md, 20_memory.md). Every update of a state is a record update of one field, so that what it leaves alone is plain.
There is no operation for taking an exception or returning from one: the core has neither (60_exceptions.md rules R83, R87, R88).
-/

namespace Sys2Proof.Machine

/-! ## General registers (R12, R13) -/

/-- `x[i]`: 0 for `i = 0`, else `GPR[i]` (R13). -/
def State.x (s : State) (i : Reg) : Word :=
  if i = 0#5 then 0#32 else s.gpr[i.toNat]'(i.isLt)

/-- `x[i] <- v`: discarded for `i = 0` (R13). -/
def State.setX (s : State) (i : Reg) (v : Word) : State :=
  { s with gpr := if i = 0#5 then s.gpr else s.gpr.set i.toNat v (i.isLt) }

/-! ## Program counter and counter (R15, R16, R17, R90) -/

/-- `W <- t`. -/
def State.setW (s : State) (t : WordAddr) : State := { s with w := t }

/-- The default advance `W <- (W + 1) mod 2^30` (R75). -/
def State.advance (s : State) : State := { s with w := s.w + 1#30 }

/-- `ICOUNT <- (ICOUNT + 1) mod 2^64` (R73, R90). -/
def State.tick (s : State) : State := { s with icount := s.icount + 1#64 }

/-- The word address of a byte address: `b[31:2]` (R17). -/
def wordAddrOf (b : Word) : WordAddr := b.extractLsb' 2 30

/-- The byte address of a word address: `W * 4` (R15). -/
def byteAddrOf (t : WordAddr) : Word := t ++ 0#2

/-- `PSW = PS / 4` (R15). -/
def State.psw (s : State) : WordAddr := wordAddrOf s.ps

/-- `fake_pc = (W - PSW) mod 2^30` (R15). -/
def State.fakePc (s : State) : WordAddr := s.w - s.psw

/-- The PC's byte address (R15, R17). -/
def State.pcByte (s : State) : Word := byteAddrOf s.w

/-- `PSIZE`, the length of the image (R18). -/
def State.psize (s : State) : Nat := s.image.length

/-- The instruction word the cycle executes: `IMG[F]` for `F < PSIZE` (R74), none outside the image (R77). -/
def State.fetch (s : State) : Option Word := s.image[s.fakePc.toNat]?

/-! ## Byte order (R26, R27, R103) -/

/-- The word whose bytes in rising address order are `b0 b1 b2 b3` (R26, R103). -/
def wordOfBytes (order : ByteOrder) (b0 b1 b2 b3 : Byte) : Word :=
  match order with
  | .little => b3 ++ b2 ++ b1 ++ b0
  | .big => b0 ++ b1 ++ b2 ++ b3

/-- The byte of `v` at offset `k` of its four bytes in rising address order (R27). -/
def byteOfWord (order : ByteOrder) (v : Word) (k : Nat) : Byte :=
  match order with
  | .little => v.extractLsb' (8 * k) 8
  | .big => v.extractLsb' (24 - 8 * k) 8

/-! ## The bytes of a Memory: a list in canonical form -/

/-- What an unlisted byte reads as: "fresh memory reads as 0 until written" (R24). -/
def unlistedByte : Byte := 0#8

/-- The byte listed at an address. -/
def lookupCell : List Host.Cell → Nat → Byte
  | [], _ => unlistedByte
  | (k, b) :: rest, a => if k = a then b else lookupCell rest a

/-- The list without the entries at an address. -/
def eraseCell : List Host.Cell → Nat → List Host.Cell
  | [], _ => []
  | (k, b) :: rest, a => if k = a then eraseCell rest a else (k, b) :: eraseCell rest a

/-- The list with an entry put before the first higher address. -/
def insertCell : List Host.Cell → Nat → Byte → List Host.Cell
  | [], a, v => [(a, v)]
  | (k, b) :: rest, a, v => if a < k then (a, v) :: (k, b) :: rest else (k, b) :: insertCell rest a v

/-- The list after a byte is written: a byte equal to the unlisted one is listed no more. -/
def writeCell (cells : List Host.Cell) (a : Nat) (v : Byte) : List Host.Cell :=
  if v = unlistedByte then eraseCell cells a else insertCell (eraseCell cells a) a v

/-- Addresses strictly rise, from `lo` on, and no listed byte equals the unlisted one. -/
def cellsWf : List Host.Cell → Nat → Bool
  | [], _ => true
  | (k, b) :: rest, lo => decide (lo ≤ k) && decide (b ≠ unlistedByte) && cellsWf rest (k + 1)

/-- The canonical form of a Memory's bytes. -/
def Memory.wf (m : Memory) : Bool := cellsWf m.cells 0

/-- Every listed byte lies in the buffer `[MEM_BASE, MEM_BASE + MEM_SIZE)` (R24). -/
def Memory.inBuffer (m : Memory) : Bool :=
  m.cells.all fun c => decide (m.cfg.base.toNat ≤ c.1) && decide (c.1 < m.cfg.base.toNat + m.cfg.size)

/-- The byte at an integer address, `B[a - MEM_BASE]` (R24). -/
def Memory.byteAt (m : Memory) (a : Nat) : Byte := lookupCell m.cells a

/-! ## Accessors of the memory device (R25 to R29). Each is one atomic call under the lock (R33, assumption 25). -/

/-- `valid(a, w)`, in unbounded integers (R25, D20). -/
def Memory.valid (m : Memory) (a : Word) (width : Nat) : Bool :=
  decide (m.cfg.base.toNat ≤ a.toNat) && decide (a.toNat - m.cfg.base.toNat + width ≤ m.cfg.size)

/-- `get_word_unsigned(a)`, the `MemRead(a, 4)` of R26. -/
def Memory.getWordUnsigned (m : Memory) (a : Word) : Word :=
  if m.valid a 4 then
    wordOfBytes m.cfg.order (m.byteAt a.toNat) (m.byteAt (a.toNat + 1)) (m.byteAt (a.toNat + 2)) (m.byteAt (a.toNat + 3))
  else 0#32

/-- `get_word_signed(a)`: the same bits read as an i32 (R29). -/
def Memory.getWordSigned (m : Memory) (a : Word) : Int := (m.getWordUnsigned a).toInt

/-- The four bytes of a word written at an integer address (R27). -/
def writeWordCells (order : ByteOrder) (cells : List Host.Cell) (a : Nat) (v : Word) : List Host.Cell :=
  writeCell (writeCell (writeCell (writeCell cells a (byteOfWord order v 0)) (a + 1) (byteOfWord order v 1))
    (a + 2) (byteOfWord order v 2)) (a + 3) (byteOfWord order v 3)

/-- `set_word(a, v)`, the `MemWrite(a, 4, v)` of R27: all four bytes or none. -/
def Memory.setWord (m : Memory) (a : Word) (v : Word) : Memory :=
  { m with cells := if m.valid a 4 then writeWordCells m.cfg.order m.cells a.toNat v else m.cells }

/-- `get_byte_unsigned(a)` (R28). -/
def Memory.getByteUnsigned (m : Memory) (a : Word) : Byte :=
  if m.valid a 1 then m.byteAt a.toNat else 0#8

/-- `get_byte_signed(a)`: the same byte read as an i8 (R28). -/
def Memory.getByteSigned (m : Memory) (a : Word) : Int := (m.getByteUnsigned a).toInt

/-- `set_byte(a, v)` (R28). -/
def Memory.setByte (m : Memory) (a : Word) (v : Byte) : Memory :=
  { m with cells := if m.valid a 1 then writeCell m.cells a.toNat v else m.cells }

/-- `MemRead(a, 4)` (R9). -/
def State.memRead (s : State) (a : Word) : Word := s.mem.getWordUnsigned a

/-- `MemWrite(a, 4, v)` (R9). -/
def State.memWrite (s : State) (a : Word) (v : Word) : State := { s with mem := s.mem.setWord a v }

/-! ## How an instruction ends -/

/-- The end of an instruction that writes one register: `x[rd] <- v`, `nextW = W + 1` (R55, R66, R68). -/
def State.writeReg (s : State) (rd : Reg) (v : Word) : Host.Outcome State Fault Refusal :=
  .next (s.setX rd v).advance

/-- The end of an instruction that writes only the PC: `W <- nextW` (R64, R72). -/
def State.goTo (s : State) (nextW : WordAddr) : Host.Outcome State Fault Refusal :=
  .next (s.setW nextW)

/-- The end of an instruction that writes one word of the Memory: `MemWrite(a, 4, v)`, `nextW = W + 1` (R67). -/
def State.store (s : State) (a : Word) (v : Word) : Host.Outcome State Fault Refusal :=
  .next (s.memWrite a v).advance

end Sys2Proof.Machine
end

