-- ==== Sys2Proof/Machine/Cycle.lean ====
section
/-!
DEFINITION. The parts of one cycle around `exec` (45_step_and_pc_update.md rule R73), and where a word is placed so that the next
cycle fetches it.
-/

namespace Sys2Proof.Machine

/-- The past-end advance: nothing is decoded or executed, `W` advances, the counter counts (R77, R73). -/
def State.pastEnd (s : State) : State := s.advance.tick

/-- A word that decodes as `NOP_UNLISTED`: `W` advances, the counter counts (R76). -/
def State.noOp (s : State) : State := s.advance.tick

/-- The end of a cycle that executed an instruction: the counter counts (R73). -/
def countCycle (o : Host.Outcome State Fault Refusal) : Host.Outcome State Fault Refusal :=
  match o with
  | .next t => .next t.tick
  | .fault r => .fault r
  | .refused r => .refused r

/-- The state whose next fetch reads `inst`: the word at `fake_pc` is replaced, or, with the PC outside the image, a one-word image is
loaded at the PC (it stands for the host's `load`, assumption 26). -/
def State.placeWord (s : State) (inst : Word) : State :=
  if s.fakePc.toNat < s.image.length then { s with image := s.image.set s.fakePc.toNat inst }
  else { s with image := [inst], ps := s.pcByte }

end Sys2Proof.Machine
end

