-- ==== Sys2Proof/Machine/Flags.lean ====
section
/-!
DEFINITION. The conditions an instruction computes. The core has no flags, condition codes or predicates (10_state.md rule R19):
ADD, SUB and ADDI record no carry and no overflow. SLT writes its condition to a register and BEQ uses its own at once.
-/

namespace Sys2Proof.Machine

/-- SLT's condition under each `SLT_MODE`: `<u` or `<s` (R63, R7). -/
def lessThan (mode : SltMode) (a b : Word) : Bool :=
  match mode with
  | .unsigned => a.ult b
  | .signed => a.slt b

/-- A condition as the register value 1 or 0 (R63). -/
def boolWord (c : Bool) : Word := if c then 1#32 else 0#32

/-- BEQ's condition: the register values are equal as 32-bit words (R64, 90_conflicts.md C6). -/
def State.regsEqual (s : State) (rs rt : Reg) : Bool := s.x rs == s.x rt

end Sys2Proof.Machine
end

