-- ==== Sys2Proof/Machine/Operands.lean ====
section
/-!
DEFINITION. Operand assembly, per instruction (30_encoding.md rule R45), and the extension primitives of 00_scope.md rule R8.
-/

namespace Sys2Proof.Machine

/-- `sext16` (R8), the source's `sign_ext16` with the canonical bit-15 test (90_conflicts.md C5). -/
def sext16 (v : Imm16) : Word := v.signExtend 32

/-- `zext16` (R8). -/
def zext16 (v : Imm16) : Word := v.zeroExtend 32

/-- `sext16to30` (R8). -/
def sext16to30 (v : Imm16) : WordAddr := v.signExtend 30

/-- `EA = (x[rs] + sext16(imm)) mod 2^32` (R65). -/
def State.ea (s : State) (rs : Reg) (imm : Imm16) : Word := s.x rs + sext16 imm

/-- BEQ's taken target, `(W + sext16to30(imm)) mod 2^30`: relative to the branch itself (R64). -/
def State.branchTarget (s : State) (imm : Imm16) : WordAddr := s.w + sext16to30 imm

/-- A word address with its low 26 bits replaced by a target: "replaces" clears them first (R72, 90_conflicts.md C8). -/
def replaceLow26 (t : WordAddr) (target : Target26) : WordAddr :=
  (t &&& 0x3C000000#30) ||| target.zeroExtend 30

/-- J's target under each `J_BASE` (R72). -/
def State.jumpTarget (s : State) (target : Target26) : WordAddr :=
  match s.cfg.jBase with
  | .absolute => replaceLow26 s.w target
  | .imageRelative => s.psw + replaceLow26 s.fakePc target

end Sys2Proof.Machine
end

