-- ==== Sys2Proof/Machine/Branch.lean ====
section
/-! DEFINITION. The conditional branch (41_branch.md). -/

namespace Sys2Proof.Machine

/-- BEQ: taken, `W + sext16to30(imm)` with no added 1; not taken, `W + 1` (R64). -/
def execBeq (rs rt : Reg) (imm : Imm16) (s : State) : Host.Outcome State Fault Refusal :=
  s.goTo (if s.regsEqual rs rt then s.branchTarget imm else s.w + 1#30)

end Sys2Proof.Machine
end

