-- ==== Sys2Proof/Machine/ImmediateAlu.lean ====
section
/-! DEFINITION. The immediate ALU instructions (43_immediate_alu.md). ANDI and ORI zero-extend, ADDI sign-extends (R68). -/

namespace Sys2Proof.Machine

/-- ANDI (R69). -/
def execAndi (rt rs : Reg) (imm : Imm16) (s : State) : Host.Outcome State Fault Refusal :=
  s.writeReg rt (s.x rs &&& zext16 imm)

/-- ORI (R70). -/
def execOri (rt rs : Reg) (imm : Imm16) (s : State) : Host.Outcome State Fault Refusal :=
  s.writeReg rt (s.x rs ||| zext16 imm)

/-- ADDI: modulo 2^32, no trap (R71). -/
def execAddi (rt rs : Reg) (imm : Imm16) (s : State) : Host.Outcome State Fault Refusal :=
  s.writeReg rt (s.x rs + sext16 imm)

end Sys2Proof.Machine
end

