-- ==== Sys2Proof/Machine/Jump.lean ====
section
/-! DEFINITION. The jump (44_jump.md). -/

namespace Sys2Proof.Machine

/-- J: the target replaces the low 26 bits of the J's own word address, by `J_BASE` (R72). -/
def execJ (target : Target26) (s : State) : Host.Outcome State Fault Refusal :=
  s.goTo (s.jumpTarget target)

end Sys2Proof.Machine
end

