-- ==== Sys2Proof/Machine/LoadStore.lean ====
section
/-! DEFINITION. The loads and stores (42_load_store.md), over the memory device's word accessors. -/

namespace Sys2Proof.Machine

/-- LW: an address out of range reads 0, and any alignment is read as it stands (R66). -/
def execLw (rt rs : Reg) (imm : Imm16) (s : State) : Host.Outcome State Fault Refusal :=
  s.writeReg rt (s.memRead (s.ea rs imm))

/-- SW: a store out of range does nothing (R67). -/
def execSw (rt rs : Reg) (imm : Imm16) (s : State) : Host.Outcome State Fault Refusal :=
  s.store (s.ea rs imm) (s.x rt)

end Sys2Proof.Machine
end

