-- ==== Sys2Proof/Machine/RType.lean ====
section
/-!
DEFINITION. The R-type ALU instructions (40_r_type_alu.md). Each reads its sources from the state before it and writes only `x[rd]`
(R55, R78).
-/

namespace Sys2Proof.Machine

/-- AND (R56). -/
def execAnd (rd rs rt : Reg) (s : State) : Host.Outcome State Fault Refusal :=
  s.writeReg rd (s.x rs &&& s.x rt)

/-- OR (R57). -/
def execOr (rd rs rt : Reg) (s : State) : Host.Outcome State Fault Refusal :=
  s.writeReg rd (s.x rs ||| s.x rt)

/-- XOR (R58). -/
def execXor (rd rs rt : Reg) (s : State) : Host.Outcome State Fault Refusal :=
  s.writeReg rd (s.x rs ^^^ s.x rt)

/-- ADD: modulo 2^32, no trap (R59). -/
def execAdd (rd rs rt : Reg) (s : State) : Host.Outcome State Fault Refusal :=
  s.writeReg rd (s.x rs + s.x rt)

/-- SUB: modulo 2^32, no trap (R60). -/
def execSub (rd rs rt : Reg) (s : State) : Host.Outcome State Fault Refusal :=
  s.writeReg rd (s.x rs - s.x rt)

/-- SLL (R61). -/
def execSll (rd rt : Reg) (shamt : Shamt) (s : State) : Host.Outcome State Fault Refusal :=
  s.writeReg rd (s.x rt <<< shamt.toNat)

/-- SRL: zeros enter at bit 31 (R62). -/
def execSrl (rd rt : Reg) (shamt : Shamt) (s : State) : Host.Outcome State Fault Refusal :=
  s.writeReg rd (s.x rt >>> shamt.toNat)

/-- SLT, by `SLT_MODE` (R63). -/
def execSlt (rd rs rt : Reg) (s : State) : Host.Outcome State Fault Refusal :=
  s.writeReg rd (boolWord (lessThan s.cfg.sltMode (s.x rs) (s.x rt)))

end Sys2Proof.Machine
end

