-- ==== Sys2Proof/Machine/Step.lean ====
section
/-!
DEFINITION. One cycle of the core (45_step_and_pc_update.md rule R73). It does not look at `CLK`: the clock driver and the host's
`step` both run it (R106, R80), and each guards it in its own file.
-/

namespace Sys2Proof.Machine

/-- One cycle: fetch, decode, execute, update the PC, count (R73). -/
def step (s : State) : Host.Outcome State Fault Refusal :=
  match s.fetch with
  | none => .next s.pastEnd
  | some inst =>
    match decode inst with
    | .nopUnlisted => .next s.noOp
    | .listed i => countCycle (exec i s)

/-- The state whose next step fetches the opcode-table word `w`. -/
def State.withFetchWord (s : State) (nbits w : Nat) : State := s.placeWord (tableWord nbits w)

end Sys2Proof.Machine
end

