-- ==== Sys2Proof/Machine/Assembler.lean ====
section
/-!
DEFINITION. The assembler notation of 30_encoding.md rules R52 to R54: forms, label resolution, pseudo-instructions. It gives no
instruction a meaning (D28, assumption 27).
-/

namespace Sys2Proof

/-- The instruction of an assembler line, if its operands fit (R52, R45). -/
def AsmInstr.assemble (a : AsmInstr) : Option Instr :=
  if a.wellFormed then
    some (match a with
      | .and rd rs rt => .and (BitVec.ofNat 5 rd) (BitVec.ofNat 5 rs) (BitVec.ofNat 5 rt)
      | .or rd rs rt => .or (BitVec.ofNat 5 rd) (BitVec.ofNat 5 rs) (BitVec.ofNat 5 rt)
      | .xor rd rs rt => .xor (BitVec.ofNat 5 rd) (BitVec.ofNat 5 rs) (BitVec.ofNat 5 rt)
      | .add rd rs rt => .add (BitVec.ofNat 5 rd) (BitVec.ofNat 5 rs) (BitVec.ofNat 5 rt)
      | .sub rd rs rt => .sub (BitVec.ofNat 5 rd) (BitVec.ofNat 5 rs) (BitVec.ofNat 5 rt)
      | .sll rd rt shamt => .sll (BitVec.ofNat 5 rd) (BitVec.ofNat 5 rt) (BitVec.ofNat 5 shamt)
      | .srl rd rt shamt => .srl (BitVec.ofNat 5 rd) (BitVec.ofNat 5 rt) (BitVec.ofNat 5 shamt)
      | .slt rd rs rt => .slt (BitVec.ofNat 5 rd) (BitVec.ofNat 5 rs) (BitVec.ofNat 5 rt)
      | .beq rs rt off => .beq (BitVec.ofNat 5 rs) (BitVec.ofNat 5 rt) (BitVec.ofInt 16 off)
      | .lw rt off rs => .lw (BitVec.ofNat 5 rt) (BitVec.ofNat 5 rs) (BitVec.ofInt 16 off)
      | .sw rt off rs => .sw (BitVec.ofNat 5 rt) (BitVec.ofNat 5 rs) (BitVec.ofInt 16 off)
      | .andi rt rs imm => .andi (BitVec.ofNat 5 rt) (BitVec.ofNat 5 rs) (BitVec.ofNat 16 imm)
      | .ori rt rs imm => .ori (BitVec.ofNat 5 rt) (BitVec.ofNat 5 rs) (BitVec.ofNat 16 imm)
      | .addi rt rs imm => .addi (BitVec.ofNat 5 rt) (BitVec.ofNat 5 rs) (BitVec.ofInt 16 imm)
      | .j target => .j (BitVec.ofNat 26 target))
  else none

end Sys2Proof

namespace Sys2Proof.Machine

/-! ## Label resolution (R53) -/

/-- BEQ's immediate for a label: `(L_word - W_of_the_beq)[15:0]`, none where the offset does not fit. DEDUCED: the difference is taken
modulo 2^30 like the branch itself, so a label across the wrap can be reached (assumption 27). -/
def beqLabel (label here : WordAddr) : Option Imm16 :=
  if simm16Ok (label - here).toInt then some ((label - here).extractLsb' 0 16) else none

/-- J's field for a label, by `J_BASE`. -/
def jLabel (jBase : JBase) (psw label : WordAddr) : Target26 :=
  match jBase with
  | .absolute => label.extractLsb' 0 26
  | .imageRelative => (label - psw).extractLsb' 0 26

/-- J can reach a label: the two addresses agree in bits 29:26 (R53). Under `image_relative` the addresses are the `fake_pc`s. -/
def jReaches (jBase : JBase) (psw here label : WordAddr) : Bool :=
  match jBase with
  | .absolute => here.extractLsb' 26 4 == label.extractLsb' 26 4
  | .imageRelative => (here - psw).extractLsb' 26 4 == (label - psw).extractLsb' 26 4

/-! ## Pseudo-instructions (R54) -/

/-- The pseudo-instructions of R54. Its three forms of `li` are three constructors. -/
inductive Pseudo where
  | nop
  | move (rd rs : Reg)
  | clear (rd : Reg)
  | neg (rd rs : Reg)
  | liUnsigned (rt : Reg) (u : Imm16)
  | liNegative (rt : Reg) (n : Imm16)
  | liWord (rt : Reg) (v : Word)
  | b (imm : Imm16)
  | beqz (rs : Reg) (imm : Imm16)
  | halt
deriving DecidableEq, Repr

/-- The expansions of R54. -/
def Pseudo.expand : Pseudo → List Instr
  | .nop => [.sll 0 0 0]
  | .move rd rs => [.or rd rs 0]
  | .clear rd => [.or rd 0 0]
  | .neg rd rs => [.sub rd 0 rs]
  | .liUnsigned rt u => [.ori rt 0 u]
  | .liNegative rt n => [.addi rt 0 n]
  | .liWord rt v => [.ori rt 0 (v.extractLsb' 16 16), .sll rt rt 16, .ori rt rt (v.extractLsb' 0 16)]
  | .b imm => [.beq 0 0 imm]
  | .beqz rs imm => [.beq rs 0 imm]
  | .halt => [.beq 0 0 0]

end Sys2Proof.Machine

namespace Sys2Proof

/-! ## Names (R52) -/

/-- A register as `$0` to `$31`. -/
def regName (r : Reg) : String := "$" ++ toString r.toNat

/-- The conventional MIPS ABI names, in index order. The core gives none but r0 a special meaning. -/
def abiNames : List String :=
  ["zero", "at", "v0", "v1", "a0", "a1", "a2", "a3"] ++ ["t0", "t1", "t2", "t3", "t4", "t5", "t6", "t7"] ++
    ["s0", "s1", "s2", "s3", "s4", "s5", "s6", "s7"] ++ ["t8", "t9", "k0", "k1", "gp", "sp", "fp", "ra"]

/-- A line of operands. -/
def asmLine (mnemonic : String) (operands : List String) : String := mnemonic ++ " " ++ ", ".intercalate operands

/-- An instruction in the operand order of R52. -/
def Instr.render : Instr → String
  | .and rd rs rt => asmLine "and" [regName rd, regName rs, regName rt]
  | .or rd rs rt => asmLine "or" [regName rd, regName rs, regName rt]
  | .xor rd rs rt => asmLine "xor" [regName rd, regName rs, regName rt]
  | .add rd rs rt => asmLine "add" [regName rd, regName rs, regName rt]
  | .sub rd rs rt => asmLine "sub" [regName rd, regName rs, regName rt]
  | .sll rd rt shamt => asmLine "sll" [regName rd, regName rt, toString shamt.toNat]
  | .srl rd rt shamt => asmLine "srl" [regName rd, regName rt, toString shamt.toNat]
  | .slt rd rs rt => asmLine "slt" [regName rd, regName rs, regName rt]
  | .beq rs rt imm => asmLine "beq" [regName rs, regName rt, toString imm.toInt]
  | .lw rt rs imm => asmLine "lw" [regName rt, toString imm.toInt ++ "(" ++ regName rs ++ ")"]
  | .sw rt rs imm => asmLine "sw" [regName rt, toString imm.toInt ++ "(" ++ regName rs ++ ")"]
  | .andi rt rs imm => asmLine "andi" [regName rt, regName rs, toString imm.toNat]
  | .ori rt rs imm => asmLine "ori" [regName rt, regName rs, toString imm.toNat]
  | .addi rt rs imm => asmLine "addi" [regName rt, regName rs, toString imm.toInt]
  | .j target => asmLine "j" [toString target.toNat]

end Sys2Proof
end

