-- ==== Sys2Proof/Machine/Construct.lean ====
section
/-!
DEFINITION. Construction, the core's power-on reset and its only reset (70_reset_and_hazards.md rule R101, 10_state.md rule R23).
`State.reset` is its value at the reference parameters.
-/

namespace Sys2Proof.Machine

/-- The Memory a CPU is built with (R24, R101): a fresh one of its own, or one supplied from outside as it stands. -/
inductive MemorySupply where
  | own (cfg : MemConfig)
  | supplied (m : Memory)
deriving DecidableEq, Repr

/-- The Memory behind a supply. -/
def MemorySupply.memory : MemorySupply → Memory
  | .own cfg => Memory.fresh cfg
  | .supplied m => m

/-- A CPU at construction (R23). `INIT_GPR` gives r1..r31; r0 is 0 whatever it holds at index 0. -/
def State.construct (cfg : CoreConfig) (initGpr : Vector Word 32) (supply : MemorySupply) : State :=
  { cfg := cfg
    gpr := initGpr.set 0 0
    w := 0
    image := []
    ps := 0
    clk := .stopped
    freq := 0
    icount := 0
    stopReq := false
    mem := supply.memory }

end Sys2Proof.Machine
end

