-- ==== Sys2Proof/Machine/Run.lean ====
section
/-!
DEFINITION. Runs of cycles (45_step_and_pc_update.md rules R73, R80). Every cycle completes (R87), so a cycle is also a function from
state to state.
-/

namespace Sys2Proof.Machine

/-- The state a cycle leaves. `step` always answers a next state (an obligation says so), so the other two cases are idle. -/
def State.cycle (s : State) : State :=
  match step s with
  | .next t => t
  | .fault _ => s
  | .refused _ => s

/-- The state after `n` cycles. -/
def State.cycles : Nat → State → State
  | 0, s => s
  | n + 1, s => State.cycles n s.cycle

/-- The instructions that make a memory access: LW and SW only (R38). -/
def accessesMemory : Instr → Bool
  | .lw .. | .sw .. => true
  | .and .. | .or .. | .xor .. | .add .. | .sub .. | .sll .. | .srl .. | .slt .. => false
  | .beq .. | .andi .. | .ori .. | .addi .. | .j .. => false

/-- The next cycle executes a LW or a SW, so it makes the cycle's one memory access (R38, R79). -/
def State.touchesMemory (s : State) : Bool :=
  match s.fetch with
  | none => false
  | some inst =>
    match decode inst with
    | .nopUnlisted => false
    | .listed i => accessesMemory i

end Sys2Proof.Machine
end

