-- ==== Sys2Proof/Machine/Surface.lean ====
section
/-!
DEFINITION. The words of the host's control surface (60_exceptions.md rules R84, R96) and of software that holds a Memory directly
(20_memory.md rules R28, R29): the calls, their replies, the errors. What a call does stands in Loader, Clock and Control.
-/

namespace Sys2Proof.Machine

/-- The errors a host call returns (R84). Each leaves the state unchanged. -/
inductive CallError where
  /-- `LoadError::MisalignedStart`. -/
  | misalignedStart
  /-- `LoadError::TruncatedImage`. -/
  | truncatedImage
  /-- `LoadError::Unreadable`. -/
  | unreadable
  /-- `InvalidFrequency`. -/
  | invalidFrequency
  /-- `Busy`, the spec's own (D14). -/
  | busy
  /-- `BadRegisterIndex`, the spec's own (D13). -/
  | badRegisterIndex
  /-- `ImageTooLarge`, the spec's own (D26). -/
  | imageTooLarge
deriving DecidableEq, Repr

/-- What `load` is given (R96, R102): bytes, or a path, of which the model sees only what reading it yields (assumption 33). -/
inductive Source where
  | bytes (b : List Byte)
  | path (contents : Option (List Byte))
deriving DecidableEq, Repr

/-- The calls of R96. A register index is any number; R97 refuses 32 and above. -/
inductive HostCall where
  | load (src : Source) (start : Word)
  | step (count : BitVec 32)
  | run (frequency : BitVec 32)
  | stop
  | getRegister (i : Nat)
  | setRegister (i : Nat) (v : Word)
  | getPc
  | setPc (b : Word)
  | getMemory (a : Word)
  | setMemory (a : Word) (v : Word)
deriving DecidableEq, Repr

/-- What a call returns. -/
inductive Reply where
  | done
  | error (e : CallError)
  | word (v : Word)
  | count (n : BitVec 64)
deriving DecidableEq, Repr

/-- The accessors of a Memory (R26 to R29). -/
inductive MemCall where
  | getWordUnsigned (a : Word)
  | getWordSigned (a : Word)
  | setWord (a : Word) (v : Word)
  | getByteUnsigned (a : Word)
  | getByteSigned (a : Word)
  | setByte (a : Word) (v : Byte)
deriving DecidableEq, Repr

/-- What an accessor returns: a u32, a u8, an i32 or i8 as an integer, or nothing. -/
inductive MemReply where
  | done
  | word (v : Word)
  | byte (v : Byte)
  | int (n : Int)
deriving DecidableEq, Repr

end Sys2Proof.Machine
end

