-- ==== Sys2Proof/Machine/Clock.lean ====
section
/-!
DEFINITION. The clock driver (70_reset_and_hazards.md rules R105 to R108). Time is not modelled (D23, assumption 23): the driver is a
sequence of loop iterations, and how many happen between `run` and `stop` is for the environment to choose.
-/

namespace Sys2Proof.Machine

/-- `run(frequency_hz)` (R105): 0 is refused; else `FREQ` is set and the clock runs, also when it already ran (D17). -/
def State.run (s : State) (frequency : BitVec 32) : Reply × State :=
  if frequency = 0#32 then (.error .invalidFrequency, s)
  else (.done, { s with freq := frequency, clk := .running })

/-- The first half of `stop`: the request, pending until the next loop boundary (R22, R107). A stopped clock has no loop to ask. -/
def State.requestStop (s : State) : State :=
  match s.clk with
  | .running => { s with stopReq := true }
  | .stopped => s

/-- The loop boundary that honours a request: `CLK := Stopped`, `STOP_REQ` clear (R107). -/
def State.finishStop (s : State) : State := { s with clk := .stopped, stopReq := false }

/-- One iteration of the driver's loop (R106). It tests `CLK` and `STOP_REQ` between cycles only, and runs the cycle directly, past
the `Busy` guard of the host's `step`. -/
def State.driverIteration (s : State) : State :=
  match s.clk with
  | .stopped => s
  | .running => if s.stopReq then s.finishStop else s.cycle

/-- `stop()` (R107): request, then the boundary, then the counter's value as it stands. On a stopped clock nothing changes (D18). -/
def State.stop (s : State) : Reply × State :=
  match s.clk with
  | .running => (.count s.icount, s.requestStop.finishStop)
  | .stopped => (.count s.icount, s)

/-- The per-instruction time budget `1/FREQ` in seconds (R20, R105), derived and read by no rule of the model. -/
def State.slice (s : State) : Rat := 1 / (s.freq.toNat : Rat)

/-- How long the driver sleeps after a cycle that took `elapsed` seconds: "`slice - elapsed` if positive" (R106). -/
def State.pause (s : State) (elapsed : Rat) : Rat := if elapsed < s.slice then s.slice - elapsed else 0

end Sys2Proof.Machine
end

