-- ==== Sys2Proof/Machine/Loader.lean ====
section
/-! DEFINITION. The loader (70_reset_and_hazards.md rules R102, R103). -/

namespace Sys2Proof.Machine

/-- The bytes of a source: "open and read bytes" (R4, R102). -/
def Source.read : Source → Option (List Byte)
  | .bytes b => some b
  | .path contents => contents

/-- The image of a program file (R103): one word per four bytes. -/
def imageDecode (order : ByteOrder) : List Byte → List Word
  | c0 :: c1 :: c2 :: c3 :: rest => wordOfBytes order c0 c1 c2 c3 :: imageDecode order rest
  | _ => []

/-- The checks of `load`, in their order (R102, R86, D25): the bytes to load, or the one error reported. -/
def loadCheck (src : Source) (start : Word) : Except CallError (List Byte) :=
  if start.toNat % 4 ≠ 0 then .error .misalignedStart
  else match src.read with
    | none => .error .unreadable
    | some bytes =>
      if bytes.length % 4 ≠ 0 then .error .truncatedImage
      else if bytes.length / 4 > 2 ^ 30 then .error .imageTooLarge
      else .ok bytes

/-- The changes of a successful `load`, made as one step (R102): the registers, the Memory, `FREQ` and `ICOUNT` stay. -/
def State.replaceImage (s : State) (bytes : List Byte) (start : Word) : State :=
  { s with
    image := imageDecode s.cfg.hostOrder bytes
    ps := start
    w := wordAddrOf start
    clk := .stopped
    stopReq := false }

/-- `load(src, start)`: validate before mutate (R102). A cycle is indivisible, so none is in flight (D29, assumption 21). -/
def State.load (s : State) (src : Source) (start : Word) : Reply × State :=
  match loadCheck src start with
  | .error e => (.error e, s)
  | .ok bytes => (.done, s.replaceImage bytes start)

end Sys2Proof.Machine
end

