-- ==== Sys2Proof/Machine/Control.lean ====
section
/-!
DEFINITION. The host's control surface (60_exceptions.md rules R96 to R100) and the accessors of software that holds a Memory (20_memory.md
rules R28, R29). A call lands between two cycles (R79, R100): it is one function of the state.
-/

namespace Sys2Proof.Machine

/-- `step(count)`: `count` cycles, refused with `Busy` while Running (R80). -/
def State.stepCall (s : State) (count : BitVec 32) : Reply × State :=
  match s.clk with
  | .running => (.error .busy, s)
  | .stopped => (.done, State.cycles count.toNat s)

/-- `get_register(i)` (R97). -/
def State.getRegister (s : State) (i : Nat) : Reply × State :=
  if regOk i then (.word (s.x (BitVec.ofNat 5 i)), s) else (.error .badRegisterIndex, s)

/-- `set_register(i, v)`, discarded for `i = 0` (R97). -/
def State.setRegister (s : State) (i : Nat) (v : Word) : Reply × State :=
  if regOk i then (.done, s.setX (BitVec.ofNat 5 i) v) else (.error .badRegisterIndex, s)

/-- `get_pc()`: the byte address `W * 4` (R17, R98). -/
def State.getPc (s : State) : Reply × State := (.word s.pcByte, s)

/-- `set_pc(b)`: `W := b[31:2]` (R17, R98). -/
def State.setPc (s : State) (b : Word) : Reply × State := (.done, s.setW (wordAddrOf b))

/-- `get_memory(a)` (R99). -/
def State.getMemory (s : State) (a : Word) : Reply × State := (.word (s.memRead a), s)

/-- `set_memory(a, v)` (R99). -/
def State.setMemory (s : State) (a : Word) (v : Word) : Reply × State := (.done, s.memWrite a v)

/-- A host call: its reply and the state it leaves (R96). -/
def State.call (c : HostCall) (s : State) : Reply × State :=
  match c with
  | .load src start => s.load src start
  | .step count => s.stepCall count
  | .run frequency => s.run frequency
  | .stop => s.stop
  | .getRegister i => s.getRegister i
  | .setRegister i v => s.setRegister i v
  | .getPc => s.getPc
  | .setPc b => s.setPc b
  | .getMemory a => s.getMemory a
  | .setMemory a v => s.setMemory a v

/-- An accessor call: its reply and the Memory it leaves (R26 to R29). -/
def Memory.call (c : MemCall) (m : Memory) : MemReply × Memory :=
  match c with
  | .getWordUnsigned a => (.word (m.getWordUnsigned a), m)
  | .getWordSigned a => (.int (m.getWordSigned a), m)
  | .setWord a v => (.done, m.setWord a v)
  | .getByteUnsigned a => (.byte (m.getByteUnsigned a), m)
  | .getByteSigned a => (.int (m.getByteSigned a), m)
  | .setByte a v => (.done, m.setByte a v)

end Sys2Proof.Machine
end

