-- ==== Sys2Proof/Machine/System.lean ====
section
/-!
DEFINITION. Several cores over one Memory, shared by reference (60_exceptions.md rule R93, 90_conflicts.md C3), and the total order of
the accesses to it (20_memory.md rules R33, R38): a list of events, each atomic. An order of events is chosen by the environment, so
a claim about every list is a claim about every interleaving. A single core with a Memory of its own is just a `State`.
-/

namespace Sys2Proof.Machine

/-- The cores that share a Memory, and that Memory. Each core's `mem` is the shared Memory (kept by `System.Coherent` of Safety.lean). -/
structure System where
  cores : List State
  memory : Memory
deriving DecidableEq, Repr

/-- What can happen next (R10). -/
inductive Event where
  /-- One iteration of core `i`'s clock driver loop (R106). -/
  | tick (i : Nat)
  /-- One cycle of a host `step(count)` in progress on core `i` (R80); what a `run` meanwhile does to it is assumption 36. -/
  | manual (i : Nat)
  /-- A whole host call on core `i` (R96). -/
  | call (i : Nat) (c : HostCall)
  /-- The host's `stop` on core `i` has made its request and waits for the loop boundary, which a later `tick` is (R107). -/
  | requestStop (i : Nat)
  /-- An agent outside the listed cores enters an accessor: it takes the lock (R33). -/
  | beginAccess (g : Agent)
  /-- That agent's accessor does its work and leaves: it frees the lock (R33). -/
  | endAccess (g : Agent) (c : MemCall)
deriving DecidableEq, Repr

/-- The state with a Memory in place of its own. -/
def State.withMem (s : State) (m : Memory) : State := { s with mem := m }

/-- Every core sees the one Memory (R24, R93). -/
def System.setMemory (n : System) (m : Memory) : System :=
  { cores := n.cores.map fun s => s.withMem m, memory := m }

/-- Core `i` has acted and left the state `t`: its Memory is now everybody's (R93). -/
def System.replaceCore (n : System) (i : Nat) (t : State) : System :=
  System.setMemory { cores := n.cores.set i t, memory := t.mem } t.mem

/-- Core `i` acts by `f`. Where its act needs the Memory while an agent is inside an accessor, it waits: nothing happens (R33). -/
def System.act (n : System) (i : Nat) (needs : State → Bool) (f : State → State) : System :=
  match n.cores[i]? with
  | none => n
  | some s0 =>
    let s := s0.withMem n.memory
    if needs s && n.memory.lock.isSome then n else n.replaceCore i (f s)

/-- A driver iteration makes a memory access. -/
def State.tickNeedsMemory (s : State) : Bool :=
  match s.clk with
  | .stopped => false
  | .running => !s.stopReq && s.touchesMemory

/-- One cycle of a host `step(count)` in progress. DESIGN CHOICE (assumption 36): the spec does not say what a `run` from another context
does meanwhile, since R80 and R100 refuse only a `step` called while Running. Here that `run` succeeds, and the manual cycles left do
nothing while the clock runs, so that loop and manual stepping never both act on the core. -/
def State.manualCycle (s : State) : State :=
  match s.clk with
  | .running => s
  | .stopped => s.cycle

/-- A host call may make a memory access. -/
def HostCall.needsMemory : HostCall → Bool
  | .getMemory _ | .setMemory .. | .step _ => true
  | .load .. | .run _ | .stop | .getRegister _ | .setRegister .. | .getPc | .setPc _ => false

/-- One event. -/
def System.event (e : Event) (n : System) : System :=
  match e with
  | .tick i => n.act i State.tickNeedsMemory State.driverIteration
  | .manual i => n.act i State.touchesMemory State.manualCycle
  | .call i c => n.act i (fun _ => c.needsMemory) (fun s => (s.call c).2)
  | .requestStop i => n.act i (fun _ => false) State.requestStop
  | .beginAccess g =>
    match n.memory.lock with
    | none => n.setMemory { n.memory with lock := some g }
    | some _ => n
  | .endAccess g c =>
    if n.memory.lock = some g then n.setMemory { (n.memory.call c).2 with lock := none } else n

/-- A list of events, first to last. -/
def System.events : List Event → System → System
  | [], n => n
  | e :: rest, n => System.events rest (n.event e)

end Sys2Proof.Machine
end

