-- ==== Sys2Proof/Safety.lean ====
section
/-!
DEFINITION. What claims are stated in: the legal states, and when a program has finished.
-/

namespace Sys2Proof.Machine

/-- The states the spec allows: r0's home is 0 (R13), `PS` is a multiple of 4 and the image has at most 2^30 words (R18), the Memory's bytes
are in canonical form and in the buffer, `MEM_SIZE` is at most 2^32 (R5), a running clock has a frequency above 0 (R20), and a stop
request is pending only while the clock runs (R22, R107). -/
abbrev State.Inv (s : State) : Prop :=
  s.gpr[0] = 0 ∧ s.ps.toNat % 4 = 0 ∧ s.psize ≤ 2 ^ 30 ∧ s.mem.wf = true ∧ s.mem.inBuffer = true ∧
    s.mem.cfg.size ≤ 2 ^ 32 ∧ (s.clk = .running → s.freq ≠ 0) ∧ (s.stopReq = true → s.clk = .running)

/-- Every core of a system sees its one Memory (R24, R93). -/
abbrev System.Coherent (n : System) : Prop := ∀ s ∈ n.cores, s.mem = n.memory

/-- The spec's `halt` convention, the word of `beq $0, $0, 0` (R54, R82). -/
def haltWord : Word := 0x10000000#32

/-- The program has finished: the next cycle executes the `halt` word (R82). The core does not stop. -/
def State.finished (s : State) : Bool := s.fetch == some haltWord

end Sys2Proof.Machine
end

