-- ==== Sys2Proof/Certificates/Slice0/Obligations.lean ====
section
/-!
DEFINITION. The statements for the provers. Each `Obligations.<Name>` says in its docstring which rule of spec/ it formalises. A statement
that rests on one of the spec's own choices (92_eei_decisions.md) or on an assumption of the log names it. The parameters of R5 are
fields of the state, so "for every state" is "for every value of the parameters".
-/

namespace Sys2Proof.Claims

open Sys2Proof.Machine

/-- Nothing but general registers, `W` and the Memory's bytes may differ: no flag exists (R19), and no instruction writes any of the
control and status state (R20). -/
def KeepsControl (s t : State) : Prop :=
  t.cfg = s.cfg ∧ t.image = s.image ∧ t.ps = s.ps ∧ t.clk = s.clk ∧ t.freq = s.freq ∧ t.icount = s.icount ∧
    t.stopReq = s.stopReq ∧ t.mem.cfg = s.mem.cfg ∧ t.mem.lock = s.mem.lock

/-- Every general register reads as before. -/
def KeepsRegisters (s t : State) : Prop := ∀ r : Reg, t.x r = s.x r

/-- Every byte of the Memory reads as before. -/
def KeepsMemory (s t : State) : Prop := ∀ a : Nat, t.mem.byteAt a = s.mem.byteAt a

/-- The whole effect of an instruction that writes one register: `x[rd]` is `v` (a write to r0 is discarded), every other register
reads as before, `W` advances by 1, nothing else changes. -/
def WritesRegister (s t : State) (rd : Reg) (v : Word) : Prop :=
  (∀ r : Reg, t.x r = if r = rd ∧ r ≠ 0 then v else s.x r) ∧ t.w = s.w + 1 ∧ KeepsControl s t ∧ KeepsMemory s t

/-- The whole effect of an instruction that writes the PC only. -/
def WritesPcOnly (s t : State) : Prop := KeepsRegisters s t ∧ KeepsControl s t ∧ KeepsMemory s t

/-- Every word that matches a row of the opcode map decodes to the row's instruction (R47). -/
def RowMeans (bits mask : Word) (build : Word → Instr) : Prop :=
  ∀ inst : Word, inst &&& mask = bits → decode inst = .listed (build inst)

/-- The destination register of an instruction, if it has one (R14). -/
def destOf : Instr → Option Reg
  | .and rd _ _ | .or rd _ _ | .xor rd _ _ | .add rd _ _ | .sub rd _ _ | .slt rd _ _ => some rd
  | .sll rd _ _ | .srl rd _ _ => some rd
  | .lw rt _ _ | .andi rt _ _ | .ori rt _ _ | .addi rt _ _ => some rt
  | .beq _ _ _ | .sw _ _ _ | .j _ => none

/-- The registers an instruction reads (R14). -/
def sourcesOf : Instr → List Reg
  | .and _ rs rt | .or _ rs rt | .xor _ rs rt | .add _ rs rt | .sub _ rs rt | .slt _ rs rt => [rs, rt]
  | .sll _ rt _ | .srl _ rt _ => [rt]
  | .lw _ rs _ | .andi _ rs _ | .ori _ rs _ | .addi _ rs _ => [rs]
  | .beq rs rt _ => [rs, rt]
  | .sw rt rs _ => [rs, rt]
  | .j _ => []

/-- An instruction that is neither the branch nor the jump (R75). -/
def fallsThrough : Instr → Bool
  | .beq _ _ _ | .j _ => false
  | .and _ _ _ | .or _ _ _ | .xor _ _ _ | .add _ _ _ | .sub _ _ _ | .slt _ _ _ | .sll _ _ _ | .srl _ _ _ => true
  | .lw _ _ _ | .sw _ _ _ | .andi _ _ _ | .ori _ _ _ | .addi _ _ _ => true

/-- A byte as the low bits of a word, shifted left by `8 * k` (R26, R103). -/
def shiftedByte (b : Byte) (k : Nat) : Word := b.zeroExtend 32 <<< (8 * k)

/-- An exact signed result that 32 bits cannot hold: where a MIPS core would trap (R83). -/
def LeavesSignedRange (n : Int) : Prop := n < -2 ^ 31 ∨ 2 ^ 31 ≤ n

/-- The whole effect of an act of core `i` that leaves it at `t`: the core is `t`, the shared Memory is `t`'s, and every other core is as
it was, with that Memory. -/
def CoreActs (n m : System) (i : Nat) (t : State) : Prop :=
  m.cores[i]? = some t ∧ m.memory = t.mem ∧ ∀ j, j ≠ i → m.cores[j]? = n.cores[j]?.map fun u => u.withMem t.mem

/-- The whole effect of an outside agent that leaves the Memory at `mem`: every core sees it and is else as it was. -/
def MemoryBecomes (n m : System) (mem : Memory) : Prop :=
  m.memory = mem ∧ ∀ j : Nat, m.cores[j]? = n.cores[j]?.map fun u => u.withMem mem

/-- The listed opcodes and functs (R49). -/
def listedOpcodes : List (BitVec 6) := [0x00#6, 0x02#6, 0x04#6, 0x08#6, 0x0c#6, 0x0d#6, 0x23#6, 0x2b#6]
def listedFuncts : List (BitVec 6) := [0x00#6, 0x02#6, 0x20#6, 0x22#6, 0x24#6, 0x25#6, 0x27#6, 0x2a#6]

end Sys2Proof.Claims

section
open Sys2Proof Sys2Proof.Machine Sys2Proof.Claims

/-! ## Encoding and decode (30_encoding.md) -/

/-- Decoding the word of any instruction gives the instruction back, with every operand at every value (R43, R44, R46). -/
def Obligations.DecodeUndoesEncode : Prop :=
  ∀ i : Instr, i.wellFormed = true → decode (encode i) = .listed i

/-- Encoding what a word decodes to gives back every bit the instruction depends on. The ignored fields are written as zero, the
model's choice (assumption 13). -/
def Obligations.EncodeUndoesDecode : Prop :=
  ∀ (inst : Word) (i : Instr), decode inst = .listed i → encode i = inst &&& significantMask i

/-- The opcode map (R47): a word that matches a row means the row's instruction, a word decodes to `nopUnlisted` iff it matches no row,
at most one row matches any word, the source's two worked encodings read as it says, and the unlisted words are exactly those of the
two lists of R49. -/
def Obligations.OpcodeMapIsExact : Prop :=
  (∀ row ∈ opcodeTable, RowMeans row.bits row.mask row.build) ∧
  (∀ inst : Word, decode inst = .nopUnlisted ↔ ∀ row ∈ opcodeTable, inst &&& row.mask ≠ row.bits) ∧
  opcodeTable.Pairwise (fun row row' => ∀ inst : Word, ¬ (inst &&& row.mask = row.bits ∧ inst &&& row'.mask = row'.bits)) ∧
  decode 0x20020005#32 = .listed (.addi 2 0 5) ∧ decode 0x8C220000#32 = .listed (.lw 2 1 0) ∧
  (∀ inst : Word, decode inst = .nopUnlisted ↔
    opcodeOf inst ∉ listedOpcodes ∨ (opcodeOf inst = 0x00#6 ∧ functOf inst ∉ listedFuncts))

/-- Fields a row does not name never change what a word means (R48; the spec's own choice D19, assumption 13): two words that agree on
the significant bits of the instruction decode alike. -/
def Obligations.IgnoredFieldsChangeNothing : Prop :=
  ∀ (inst inst' : Word) (i : Instr), decode inst = .listed i →
    inst' &&& significantMask i = inst &&& significantMask i → decode inst' = .listed i

/-- The fields of a word, as numbers (R43). -/
def Obligations.FieldsOfAWord : Prop :=
  ∀ inst : Word,
    (opcodeOf inst).toNat = inst.toNat / 2 ^ 26 ∧
    (rsOf inst).toNat = inst.toNat / 2 ^ 21 % 2 ^ 5 ∧
    (rtOf inst).toNat = inst.toNat / 2 ^ 16 % 2 ^ 5 ∧
    (rdOf inst).toNat = inst.toNat / 2 ^ 11 % 2 ^ 5 ∧
    (shamtOf inst).toNat = inst.toNat / 2 ^ 6 % 2 ^ 5 ∧
    (functOf inst).toNat = inst.toNat % 2 ^ 6 ∧
    (immOf inst).toNat = inst.toNat % 2 ^ 16 ∧
    (targetOf inst).toNat = inst.toNat % 2 ^ 26

/-- A few words written out from the encodings of the spec's examples decode to what they stand for. -/
def Obligations.WordsFromTheSpecDecode : Prop :=
  decode 0x00221824#32 = .listed (.and 3 1 2) ∧ decode 0x00221827#32 = .listed (.xor 3 1 2) ∧
  decode 0x00021902#32 = .listed (.srl 3 2 4) ∧ decode 0x1022FFFD#32 = .listed (.beq 1 2 0xFFFD) ∧
  decode 0xAC220002#32 = .listed (.sw 2 1 2) ∧ decode 0x3422FFFF#32 = .listed (.ori 2 1 0xFFFF) ∧
  decode 0x08100002#32 = .listed (.j 0x100002) ∧ decode 0x00221826#32 = .nopUnlisted

/-- The extension primitives (R8): `sext16` is `v | 0xFFFF0000` if bit 15 is set, else `v`; `zext16` fills with zeros; `sext16to30` is
`sext16` reduced modulo 2^30. -/
def Obligations.ExtensionPrimitives : Prop :=
  ∀ v : Imm16,
    sext16 v = (if v.getLsbD 15 then v.zeroExtend 32 ||| 0xFFFF0000#32 else v.zeroExtend 32) ∧
    (zext16 v).toNat = v.toNat ∧
    (sext16to30 v).toNat = (sext16 v).toNat % 2 ^ 30

/-! ## Architectural state (10_state.md) -/

/-- Register 0 is hardwired to zero (R13): it reads 0 in every state, a write to it by any instruction that can target a register or by
the host changes nothing, and a write to another register is read back and leaves the rest. -/
def Obligations.RegisterZeroIsHardwired : Prop :=
  (∀ s : State, s.x 0 = 0) ∧
  (∀ (s : State) (v : Word), s.setX 0 v = s) ∧
  (∀ (s : State) (i j : Reg) (v : Word), i ≠ 0 → (s.setX i v).x j = if j = i then v else s.x j) ∧
  (∀ (i : Instr) (s : State), destOf i = some 0 → exec i s = .next s.advance) ∧
  (∀ (s : State) (v : Word), s.call (.setRegister 0 v) = (.done, s))

/-- An instruction reads no general register but its sources (R14): from two states that differ in other registers only, it leaves the
same PC and the same Memory, and writes the same value. -/
def Obligations.InstructionReadsOnlyItsSources : Prop :=
  ∀ (i : Instr) (s : State) (g : Vector Word 32), (∀ r ∈ sourcesOf i, ({ s with gpr := g } : State).x r = s.x r) →
    ∃ t u, exec i s = .next t ∧ exec i { s with gpr := g } = .next u ∧ u.w = t.w ∧ u.mem = t.mem ∧
      ∀ r, destOf i = some r → u.x r = t.x r

/-- No instruction writes any control or status state, and none writes a register but its destination (R14, R20). -/
def Obligations.InstructionsKeepControlState : Prop :=
  ∀ (i : Instr) (s : State), ∃ t, exec i s = .next t ∧ KeepsControl s t ∧ ∀ r, destOf i ≠ some r → t.x r = s.x r

/-- One execution mode (R89): what an instruction does depends on none of `CLK`, `FREQ`, `ICOUNT`, `STOP_REQ`. -/
def Obligations.InstructionsIgnoreClockAndCounter : Prop :=
  ∀ (i : Instr) (s : State) (c : ClockState) (f : BitVec 32) (k : BitVec 64) (b : Bool), ∃ t,
    exec i s = .next t ∧
    exec i { s with clk := c, freq := f, icount := k, stopReq := b } =
      .next { t with clk := c, freq := f, icount := k, stopReq := b }

/-- The PC's byte address is `program_start + fake_pc*4` modulo 2^32 (R15). The 30-bit word address is the spec's own choice D2
(assumption 9). -/
def Obligations.PcByteAddressFromFakePc : Prop :=
  ∀ s : State, s.ps.toNat % 4 = 0 → s.pcByte.toNat = (s.ps.toNat + s.fakePc.toNat * 4) % 2 ^ 32

/-- `get_pc` returns `W * 4`, a multiple of 4; `set_pc(b)` drops the low two bits of `b`; the two are inverse (R17, R98). Dropping the
bits is the spec's own choice D12 (assumption 16). -/
def Obligations.HostPcAccess : Prop :=
  (∀ s : State, ∃ v : Word, s.call .getPc = (.word v, s) ∧ v.toNat = s.w.toNat * 4) ∧
  (∀ (s : State) (b : Word), ∃ t : State, s.call (.setPc b) = (.done, t) ∧ t.w.toNat = b.toNat / 4 ∧
    t = { s with w := t.w }) ∧
  (∀ (s : State) (v : Word), (s.call .getPc).1 = .word v → (s.call (.setPc v)).2 = s)

/-- The state right after construction (R23, R101), for every parameter and every Memory: r1..r31 as INIT_GPR gives them, r0 zero, and the
rest as R23's table says. The values before the first `load` are the spec's own choices D9, D10, D16 (assumptions 7, 8, 20). -/
def Obligations.ConstructionValues : Prop :=
  (∀ (cfg : CoreConfig) (g : Vector Word 32) (supply : MemorySupply),
    let s := State.construct cfg g supply
    s.x 0 = 0 ∧ (∀ r : Reg, r ≠ 0 → s.x r = g[r.toNat]'(r.isLt)) ∧ s.w = 0 ∧ s.image = [] ∧ s.ps = 0 ∧ s.psize = 0 ∧
      s.clk = .stopped ∧ s.freq = 0 ∧ s.icount = 0 ∧ s.stopReq = false ∧ s.cfg = cfg ∧ s.fetch = none) ∧
  (∀ (cfg : CoreConfig) (g : Vector Word 32) (mc : MemConfig) (a : Nat),
    (State.construct cfg g (.own mc)).mem.cfg = mc ∧ (State.construct cfg g (.own mc)).mem.byteAt a = 0) ∧
  (∀ (cfg : CoreConfig) (g : Vector Word 32) (m : Memory), (State.construct cfg g (.supplied m)).mem = m)

/-- `State.reset` is construction at the reference parameters and is a legal state; so is construction with any private Memory of at most
2^32 bytes. MEM_BASE and MEM_SIZE at reset are the model's choice (assumption 2). -/
def Obligations.ResetIsLegal : Prop :=
  State.reset = State.construct CoreConfig.reference initGprReference (.own MemConfig.reference) ∧ State.reset.Inv ∧
  ∀ (cfg : CoreConfig) (g : Vector Word 32) (mc : MemConfig), mc.size ≤ 2 ^ 32 → (State.construct cfg g (.own mc)).Inv

/-! ## The memory device (20_memory.md) -/

/-- The word read of R26, in either byte order. -/
def Obligations.WordReadByByteOrder : Prop :=
  ∀ (m : Memory) (a : Word),
    (m.valid a 4 = false → m.getWordUnsigned a = 0) ∧
    (m.valid a 4 = true → m.cfg.order = .little →
      m.getWordUnsigned a = shiftedByte (m.byteAt a.toNat) 0 ||| shiftedByte (m.byteAt (a.toNat + 1)) 1 |||
        shiftedByte (m.byteAt (a.toNat + 2)) 2 ||| shiftedByte (m.byteAt (a.toNat + 3)) 3) ∧
    (m.valid a 4 = true → m.cfg.order = .big →
      m.getWordUnsigned a = shiftedByte (m.byteAt (a.toNat + 3)) 0 ||| shiftedByte (m.byteAt (a.toNat + 2)) 1 |||
        shiftedByte (m.byteAt (a.toNat + 1)) 2 ||| shiftedByte (m.byteAt a.toNat) 3)

/-- The word write of R27, in either byte order: all four bytes, or none where the address is out of range. Every other byte, and
everything else of the Memory, is as before. -/
def Obligations.WordWriteByByteOrder : Prop :=
  ∀ (m : Memory) (a v : Word),
    (m.valid a 4 = false → m.setWord a v = m) ∧
    (m.valid a 4 = true → m.cfg.order = .little →
      ∀ k, k < 4 → (m.setWord a v).byteAt (a.toNat + k) = v.extractLsb' (8 * k) 8) ∧
    (m.valid a 4 = true → m.cfg.order = .big →
      ∀ k, k < 4 → (m.setWord a v).byteAt (a.toNat + k) = v.extractLsb' (24 - 8 * k) 8) ∧
    (∀ c, (c < a.toNat ∨ a.toNat + 4 ≤ c) → (m.setWord a v).byteAt c = m.byteAt c) ∧
    (m.setWord a v).cfg = m.cfg ∧ (m.setWord a v).lock = m.lock

/-- The byte accessors (R28): in range a byte is read, read as an i8, and written; out of range 0 is read and nothing is written. The
signed word read (R29) gives the same 32 bits as the unsigned one, and LW places them unchanged. -/
def Obligations.ByteAndSignedAccessors : Prop :=
  (∀ (m : Memory) (a : Word) (v : Byte),
    (m.valid a 1 = true → m.getByteUnsigned a = m.byteAt a.toNat) ∧
    (m.valid a 1 = false → m.getByteUnsigned a = 0 ∧ m.setByte a v = m) ∧
    m.getByteSigned a =
      (if (m.getByteUnsigned a).toNat < 128 then ((m.getByteUnsigned a).toNat : Int) else (m.getByteUnsigned a).toNat - 256) ∧
    (m.valid a 1 = true → ∀ c, (m.setByte a v).byteAt c = if c = a.toNat then v else m.byteAt c) ∧
    (m.setByte a v).cfg = m.cfg ∧ (m.setByte a v).lock = m.lock) ∧
  (∀ (m : Memory) (a : Word), BitVec.ofInt 32 (m.getWordSigned a) = m.getWordUnsigned a) ∧
  (∀ (rt rs : Reg) (imm : Imm16) (s : State), rt ≠ 0 → ∃ t, exec (.lw rt rs imm) s = .next t ∧
    (t.x rt).toInt = s.mem.getWordSigned (s.ea rs imm))

/-- A word read back at the address it was written is the word written, in either byte order; a byte read of a written byte is that byte;
and a write leaves every word that shares no byte with it (R34, and the source's worked example S9). -/
def Obligations.ReadBackWhatWasWritten : Prop :=
  (∀ (m : Memory) (a v : Word), m.valid a 4 = true → (m.setWord a v).getWordUnsigned a = v) ∧
  (∀ (m : Memory) (a : Word) (v : Byte), m.valid a 1 = true → (m.setByte a v).getByteUnsigned a = v) ∧
  (∀ (m : Memory) (a b v : Word), (b.toNat + 4 ≤ a.toNat ∨ a.toNat + 4 ≤ b.toNat) →
    (m.setWord a v).getWordUnsigned b = m.getWordUnsigned b)

/-- Only `load` changes the program image (R40, R110): no cycle, no loop iteration and no other host call does, so no store is ever seen
by instruction fetch. -/
def Obligations.OnlyLoadChangesTheImage : Prop :=
  (∀ s t : State, step s = .next t → t.image = s.image ∧ t.ps = s.ps) ∧
  (∀ s : State, s.driverIteration.image = s.image ∧ s.driverIteration.ps = s.ps) ∧
  (∀ (c : HostCall) (s : State), (∀ src start, c ≠ .load src start) → (s.call c).2.image = s.image ∧ (s.call c).2.ps = s.ps)

/-! ## R-type ALU instructions (40_r_type_alu.md) -/

/-- AND (R56). -/
def Obligations.AndResult : Prop :=
  RowMeans 0x00000024#32 0xFC00003F#32 (fun w => .and (rdOf w) (rsOf w) (rtOf w)) ∧
  ∀ (rd rs rt : Reg) (s : State), ∃ t, exec (.and rd rs rt) s = .next t ∧ WritesRegister s t rd (s.x rs &&& s.x rt)

/-- OR (R57). -/
def Obligations.OrResult : Prop :=
  RowMeans 0x00000025#32 0xFC00003F#32 (fun w => .or (rdOf w) (rsOf w) (rtOf w)) ∧
  ∀ (rd rs rt : Reg) (s : State), ∃ t, exec (.or rd rs rt) s = .next t ∧ WritesRegister s t rd (s.x rs ||| s.x rt)

/-- XOR (R58), at funct 0x27; funct 0x26 is unlisted (the source's value, kept by the spec's choice D5, assumption 12). -/
def Obligations.XorResult : Prop :=
  RowMeans 0x00000027#32 0xFC00003F#32 (fun w => .xor (rdOf w) (rsOf w) (rtOf w)) ∧
  (∀ inst : Word, inst &&& 0xFC00003F#32 = 0x00000026#32 → decode inst = .nopUnlisted) ∧
  ∀ (rd rs rt : Reg) (s : State), ∃ t, exec (.xor rd rs rt) s = .next t ∧ WritesRegister s t rd (s.x rs ^^^ s.x rt)

/-- ADD (R59): the sum of the operands as numbers, modulo 2^32, with no trap on any operands. -/
def Obligations.AddResult : Prop :=
  RowMeans 0x00000020#32 0xFC00003F#32 (fun w => .add (rdOf w) (rsOf w) (rtOf w)) ∧
  ∀ (rd rs rt : Reg) (s : State), ∃ t, exec (.add rd rs rt) s = .next t ∧
    WritesRegister s t rd (BitVec.ofNat 32 (((s.x rs).toNat + (s.x rt).toNat) % 2 ^ 32))

/-- SUB (R60): the difference of the operands as numbers, modulo 2^32, with no trap on any operands. -/
def Obligations.SubResult : Prop :=
  RowMeans 0x00000022#32 0xFC00003F#32 (fun w => .sub (rdOf w) (rsOf w) (rtOf w)) ∧
  ∀ (rd rs rt : Reg) (s : State), ∃ t, exec (.sub rd rs rt) s = .next t ∧
    WritesRegister s t rd (BitVec.ofInt 32 (((s.x rs).toNat - (s.x rt).toNat : Int) % 2 ^ 32))

/-- SLL (R61): multiplication by 2^shamt modulo 2^32. -/
def Obligations.SllResult : Prop :=
  RowMeans 0x00000000#32 0xFC00003F#32 (fun w => .sll (rdOf w) (rtOf w) (shamtOf w)) ∧
  ∀ (rd rt : Reg) (shamt : Shamt) (s : State), ∃ t, exec (.sll rd rt shamt) s = .next t ∧
    WritesRegister s t rd (BitVec.ofNat 32 ((s.x rt).toNat * 2 ^ shamt.toNat % 2 ^ 32))

/-- SRL (R62): the quotient by 2^shamt, zeros entering at bit 31. -/
def Obligations.SrlResult : Prop :=
  RowMeans 0x00000002#32 0xFC00003F#32 (fun w => .srl (rdOf w) (rtOf w) (shamtOf w)) ∧
  ∀ (rd rt : Reg) (shamt : Shamt) (s : State), ∃ t, exec (.srl rd rt shamt) s = .next t ∧
    WritesRegister s t rd (BitVec.ofNat 32 ((s.x rt).toNat / 2 ^ shamt.toNat))

/-- SLT (R63), under both values of `SLT_MODE`. -/
def Obligations.SltResult : Prop :=
  RowMeans 0x0000002A#32 0xFC00003F#32 (fun w => .slt (rdOf w) (rsOf w) (rtOf w)) ∧
  ∀ (rd rs rt : Reg) (s : State), ∃ t, exec (.slt rd rs rt) s = .next t ∧
    WritesRegister s t rd
      (match s.cfg.sltMode with
        | .unsigned => if (s.x rs).toNat < (s.x rt).toNat then 1 else 0
        | .signed => if (s.x rs).toInt < (s.x rt).toInt then 1 else 0)

/-! ## Branch and jump (41_branch.md, 44_jump.md) -/

/-- BEQ (R64): on equal register values `W + imm` with `imm` signed, from the branch itself, else `W + 1`, both modulo 2^30. The modulus
is the spec's derivation from its choice D2 (assumption 9). -/
def Obligations.BeqResult : Prop :=
  RowMeans 0x10000000#32 0xFC000000#32 (fun w => .beq (rsOf w) (rtOf w) (immOf w)) ∧
  ∀ (rs rt : Reg) (imm : Imm16) (s : State), ∃ t, exec (.beq rs rt imm) s = .next t ∧ WritesPcOnly s t ∧
    (t.w.toNat : Int) = if s.x rs = s.x rt then ((s.w.toNat : Int) + imm.toInt) % 2 ^ 30 else ((s.w.toNat : Int) + 1) % 2 ^ 30

/-- J (R72), under both values of `J_BASE`: the target replaces the low 26 bits of the J's own word address, absolute or relative to the
image; with `PS = 0` the two agree. -/
def Obligations.JumpResult : Prop :=
  RowMeans 0x08000000#32 0xFC000000#32 (fun w => .j (targetOf w)) ∧
  (∀ (target : Target26) (s : State), ∃ t, exec (.j target) s = .next t ∧ WritesPcOnly s t ∧
    t.w.toNat =
      match s.cfg.jBase with
      | .absolute => s.w.toNat / 2 ^ 26 * 2 ^ 26 + target.toNat
      | .imageRelative => (s.ps.toNat / 4 + (s.fakePc.toNat / 2 ^ 26 * 2 ^ 26 + target.toNat)) % 2 ^ 30) ∧
  (∀ (target : Target26) (s : State), s.ps = 0 →
    s.jumpTarget target = ({ s with cfg := { s.cfg with jBase := .absolute } } : State).jumpTarget target)

/-! ## Loads and stores (42_load_store.md) -/

/-- The effective address (R65) is base plus signed byte offset, modulo 2^32 (the modulus is the spec's own choice D6, assumption 10), and
an access is in range iff all its bytes are in the buffer, in integers with no wrap (R25; the spec's own choice D20, assumption 11). -/
def Obligations.EffectiveAddressAndRange : Prop :=
  (∀ (s : State) (rs : Reg) (imm : Imm16), ((s.ea rs imm).toNat : Int) = ((s.x rs).toNat + imm.toInt) % 2 ^ 32) ∧
  (∀ (m : Memory) (a : Word) (width : Nat), m.valid a width = true ↔
    (m.cfg.base.toNat : Int) ≤ a.toNat ∧ (a.toNat : Int) - m.cfg.base.toNat + width ≤ m.cfg.size)

/-- LW (R66): the word at the effective address, whatever its alignment; 0 where the four bytes are not all in the buffer. The address is
formed from the registers before the write. -/
def Obligations.LwResult : Prop :=
  RowMeans 0x8C000000#32 0xFC000000#32 (fun w => .lw (rtOf w) (rsOf w) (immOf w)) ∧
  ∀ (rt rs : Reg) (imm : Imm16) (s : State), ∃ t, exec (.lw rt rs imm) s = .next t ∧
    WritesRegister s t rt
      (if s.mem.valid (s.ea rs imm) 4 then
        wordOfBytes s.mem.cfg.order (s.mem.byteAt (s.ea rs imm).toNat) (s.mem.byteAt ((s.ea rs imm).toNat + 1))
          (s.mem.byteAt ((s.ea rs imm).toNat + 2)) (s.mem.byteAt ((s.ea rs imm).toNat + 3))
      else 0)

/-- SW (R67): the word of `rt` at the effective address, whatever its alignment, or nothing where the four bytes are not all in the
buffer. Every byte outside the four is as before. -/
def Obligations.SwResult : Prop :=
  RowMeans 0xAC000000#32 0xFC000000#32 (fun w => .sw (rtOf w) (rsOf w) (immOf w)) ∧
  ∀ (rt rs : Reg) (imm : Imm16) (s : State), ∃ t, exec (.sw rt rs imm) s = .next t ∧
    KeepsRegisters s t ∧ KeepsControl s t ∧ t.w = s.w + 1 ∧
    ∀ c : Nat, t.mem.byteAt c =
      if s.mem.valid (s.ea rs imm) 4 = true ∧ (s.ea rs imm).toNat ≤ c ∧ c < (s.ea rs imm).toNat + 4 then
        byteOfWord s.mem.cfg.order (s.x rt) (c - (s.ea rs imm).toNat)
      else s.mem.byteAt c

/-- A core's LW sees that core's own earlier SW to the same address (R38(a)): a SW in range followed by a LW of the same address into a
register other than r0 loads the stored value. -/
def Obligations.LoadSeesOwnStore : Prop :=
  ∀ (rt rs rd : Reg) (imm : Imm16) (s : State), rd ≠ 0 → s.mem.valid (s.ea rs imm) 4 = true →
    ∃ t u, exec (.sw rt rs imm) s = .next t ∧ exec (.lw rd rs imm) t = .next u ∧ u.x rd = s.x rt

/-! ## Immediate ALU instructions (43_immediate_alu.md) -/

/-- ANDI (R69), with the immediate zero-extended. -/
def Obligations.AndiResult : Prop :=
  RowMeans 0x30000000#32 0xFC000000#32 (fun w => .andi (rtOf w) (rsOf w) (immOf w)) ∧
  ∀ (rt rs : Reg) (imm : Imm16) (s : State), ∃ t, exec (.andi rt rs imm) s = .next t ∧
    WritesRegister s t rt (s.x rs &&& BitVec.ofNat 32 imm.toNat)

/-- ORI (R70), with the immediate zero-extended. -/
def Obligations.OriResult : Prop :=
  RowMeans 0x34000000#32 0xFC000000#32 (fun w => .ori (rtOf w) (rsOf w) (immOf w)) ∧
  ∀ (rt rs : Reg) (imm : Imm16) (s : State), ∃ t, exec (.ori rt rs imm) s = .next t ∧
    WritesRegister s t rt (s.x rs ||| BitVec.ofNat 32 imm.toNat)

/-- ADDI (R71), with the immediate signed and the sum modulo 2^32, no trap on any operands. -/
def Obligations.AddiResult : Prop :=
  RowMeans 0x20000000#32 0xFC000000#32 (fun w => .addi (rtOf w) (rsOf w) (immOf w)) ∧
  ∀ (rt rs : Reg) (imm : Imm16) (s : State), ∃ t, exec (.addi rt rs imm) s = .next t ∧
    WritesRegister s t rt (BitVec.ofInt 32 (((s.x rs).toNat + imm.toInt : Int) % 2 ^ 32))

/-! ## The cycle (45_step_and_pc_update.md) -/

/-- A step runs the decoded instruction (R73, R74): with the PC inside the image the word fetched is `IMG[F]`, and where it decodes to an
instruction, the cycle is `exec` of it followed by the count. -/
def Obligations.StepRunsDecodedInstruction : Prop :=
  (∀ (s : State) (h : s.fakePc.toNat < s.image.length), s.fetch = some (s.image[s.fakePc.toNat]'h)) ∧
  (∀ (s t : State) (inst : Word) (i : Instr), s.fetch = some inst → decode inst = .listed i → exec i s = .next t →
    step s = .next { t with icount := s.icount + 1 })

/-- A word the table does not list changes no register and no memory, advances `W` by 1 and adds 1 to `ICOUNT` (R76). -/
def Obligations.UnlistedWordIsNoOp : Prop :=
  ∀ (s : State) (inst : Word), s.fetch = some inst → decode inst = .nopUnlisted →
    step s = .next { s with w := s.w + 1, icount := s.icount + 1 }

/-- The past-end advance (R77): with the PC outside the image nothing is decoded or executed and `W` advances by 1; with no image every
cycle is one; and for an image that does not run past the top of the address space the test is the source's interval test. The
representation is the spec's own choice D2 (assumption 9). -/
def Obligations.PastEndAdvance : Prop :=
  (∀ s : State, s.psize ≤ s.fakePc.toNat → step s = .next { s with w := s.w + 1, icount := s.icount + 1 }) ∧
  (∀ s : State, s.psize = 0 → step s = .next { s with w := s.w + 1, icount := s.icount + 1 }) ∧
  (∀ s : State, s.psw.toNat + s.psize ≤ 2 ^ 30 →
    (s.psize ≤ s.fakePc.toNat ↔ ¬ (s.psw.toNat ≤ s.w.toNat ∧ s.w.toNat < s.psw.toNat + s.psize)))

/-- Every cycle completes (R87): no state makes a step fault or be refused, and each cycle adds 1 to `ICOUNT` (R90; D16, assumption 20). -/
def Obligations.EveryCycleCompletes : Prop :=
  ∀ s : State, ∃ t, step s = .next t ∧ s.cycle = t ∧ t.icount = s.icount + 1

/-- The default advance (R75): after any instruction but BEQ and J, after any unlisted word, and after a BEQ not taken, `W + 1`. -/
def Obligations.DefaultAdvance : Prop :=
  (∀ (i : Instr) (s : State), fallsThrough i = true → ∃ t, exec i s = .next t ∧ t.w.toNat = (s.w.toNat + 1) % 2 ^ 30) ∧
  (∀ (s : State) (inst : Word), s.fetch = some inst → decode inst = .nopUnlisted →
    ∃ t, step s = .next t ∧ t.w.toNat = (s.w.toNat + 1) % 2 ^ 30) ∧
  (∀ (rs rt : Reg) (imm : Imm16) (s : State), s.x rs ≠ s.x rt →
    ∃ t, exec (.beq rs rt imm) s = .next t ∧ t.w.toNat = (s.w.toNat + 1) % 2 ^ 30)

/-- A finished program stays finished (R82; the convention is the spec's own choice D24, assumption 28): from a state whose next word is
`beq $0, $0, 0`, any number of cycles only counts. -/
def Obligations.FinishedOnlyCounts : Prop :=
  ∀ (s : State) (n : Nat), s.finished = true → State.cycles n s = { s with icount := s.icount + BitVec.ofNat 64 n }

/-- No cycle changes the parameters, `PS`, `IMG`, `CLK`, `FREQ` or `STOP_REQ`, any byte outside the buffer, or the lock; `n` cycles add
`n` to `ICOUNT` (R20, R90; what the counter counts is the spec's own choice D16, assumption 20). The bytes outside the buffer follow from
R25 and R27; they are named by the integer keys of the model's choice, and the range test is the spec's own choice D20 (assumption 11). -/
def Obligations.CyclesKeepControlAndCount : Prop :=
  ∀ (n : Nat) (s : State),
    let t := State.cycles n s
    t.cfg = s.cfg ∧ t.image = s.image ∧ t.ps = s.ps ∧ t.clk = s.clk ∧ t.freq = s.freq ∧ t.stopReq = s.stopReq ∧
      t.mem.cfg = s.mem.cfg ∧ t.mem.lock = s.mem.lock ∧ t.icount = s.icount + BitVec.ofNat 64 n ∧
      ∀ a : Nat, (a < s.mem.cfg.base.toNat ∨ s.mem.cfg.base.toNat + s.mem.cfg.size ≤ a) → t.mem.byteAt a = s.mem.byteAt a

/-- Every legal state's cycle leaves a legal state (R5, R13, R18, R20, R22, R24). -/
def Obligations.StepKeepsLegalState : Prop :=
  ∀ s t : State, s.Inv → step s = .next t → t.Inv

/-! ## Exceptions and the host's control surface (60_exceptions.md, 70_reset_and_hazards.md) -/

/-- The silent outcomes of R83's table, every row of it: a LW out of range loads 0, a SW out of range changes no byte, a misaligned access
in range is performed at the four bytes it names, every sum or difference that leaves the signed range is the exact one modulo 2^32, a
word that is not listed and a PC outside the image are no-ops, a write to r0 is discarded. Each completes. -/
def Obligations.AnomaliesAreSilent : Prop :=
  (∀ (rt rs : Reg) (imm : Imm16) (s : State), s.mem.valid (s.ea rs imm) 4 = false →
    ∃ t, exec (.lw rt rs imm) s = .next t ∧ WritesRegister s t rt 0) ∧
  (∀ (rt rs : Reg) (imm : Imm16) (s : State), s.mem.valid (s.ea rs imm) 4 = false →
    exec (.sw rt rs imm) s = .next { s with w := s.w + 1 }) ∧
  (∀ (rt rs : Reg) (imm : Imm16) (s : State), (s.ea rs imm).toNat % 4 ≠ 0 → s.mem.valid (s.ea rs imm) 4 = true →
    ∃ t, exec (.lw rt rs imm) s = .next t ∧ WritesRegister s t rt
      (wordOfBytes s.mem.cfg.order (s.mem.byteAt (s.ea rs imm).toNat) (s.mem.byteAt ((s.ea rs imm).toNat + 1))
        (s.mem.byteAt ((s.ea rs imm).toNat + 2)) (s.mem.byteAt ((s.ea rs imm).toNat + 3)))) ∧
  (∀ (rt rs : Reg) (imm : Imm16) (s : State), (s.ea rs imm).toNat % 4 ≠ 0 → s.mem.valid (s.ea rs imm) 4 = true →
    ∃ t, exec (.sw rt rs imm) s = .next t ∧ KeepsRegisters s t ∧ KeepsControl s t ∧ t.w = s.w + 1 ∧
      ∀ c : Nat, t.mem.byteAt c =
        if (s.ea rs imm).toNat ≤ c ∧ c < (s.ea rs imm).toNat + 4 then
          byteOfWord s.mem.cfg.order (s.x rt) (c - (s.ea rs imm).toNat)
        else s.mem.byteAt c) ∧
  (∀ (rd rs rt : Reg) (s : State), LeavesSignedRange ((s.x rs).toInt + (s.x rt).toInt) →
    ∃ t, exec (.add rd rs rt) s = .next t ∧
      WritesRegister s t rd (BitVec.ofInt 32 (((s.x rs).toInt + (s.x rt).toInt) % 2 ^ 32))) ∧
  (∀ (rd rs rt : Reg) (s : State), LeavesSignedRange ((s.x rs).toInt - (s.x rt).toInt) →
    ∃ t, exec (.sub rd rs rt) s = .next t ∧
      WritesRegister s t rd (BitVec.ofInt 32 (((s.x rs).toInt - (s.x rt).toInt) % 2 ^ 32))) ∧
  (∀ (rt rs : Reg) (imm : Imm16) (s : State), LeavesSignedRange ((s.x rs).toInt + imm.toInt) →
    ∃ t, exec (.addi rt rs imm) s = .next t ∧
      WritesRegister s t rt (BitVec.ofInt 32 (((s.x rs).toInt + imm.toInt) % 2 ^ 32))) ∧
  (∀ s : State, (∀ inst, s.fetch = some inst → decode inst = .nopUnlisted) →
    step s = .next { s with w := s.w + 1, icount := s.icount + 1 }) ∧
  (∀ (i : Instr) (s : State), destOf i = some 0 → exec i s = .next { s with w := s.w + 1 })

/-- An error reply leaves the state exactly as it was (R84), for every host call. -/
def Obligations.ErrorsChangeNothing : Prop :=
  ∀ (c : HostCall) (s t : State) (e : CallError), s.call c = (.error e, t) → t = s

/-- `get_register` and `set_register` (R97): the register for an index in 0..31, `BadRegisterIndex` and no change for 32 and above (the
spec's own choice D13, assumption 17). -/
def Obligations.HostRegisterAccess : Prop :=
  (∀ (s : State) (r : Reg) (v : Word), s.call (.getRegister r.toNat) = (.word (s.x r), s) ∧
    s.call (.setRegister r.toNat v) = (.done, s.setX r v)) ∧
  (∀ (s : State) (i : Nat) (v : Word), 32 ≤ i → s.call (.getRegister i) = (.error .badRegisterIndex, s) ∧
    s.call (.setRegister i v) = (.error .badRegisterIndex, s))

/-- `get_memory` and `set_memory` (R99): the word read and the word write of the Memory; out of range 0 and no change. -/
def Obligations.HostMemoryAccess : Prop :=
  ∀ (s : State) (a v : Word),
    s.call (.getMemory a) = (.word (s.mem.getWordUnsigned a), s) ∧
    s.call (.setMemory a v) = (.done, { s with mem := s.mem.setWord a v }) ∧
    (s.mem.valid a 4 = false → s.call (.getMemory a) = (.word 0, s) ∧ s.call (.setMemory a v) = (.done, s))

/-- `step(count)` (R80): `Busy` and no change while Running (the spec's own choice D14, assumption 18); else `count` cycles one after the
other, none for 0. -/
def Obligations.HostStepCall : Prop :=
  (∀ (s : State) (count : BitVec 32), s.clk = .running → s.call (.step count) = (.error .busy, s)) ∧
  (∀ (s : State) (count : BitVec 32), s.clk = .stopped → s.call (.step count) = (.done, State.cycles count.toNat s)) ∧
  (∀ s : State, s.clk = .stopped → s.call (.step 0) = (.done, s)) ∧
  (∀ (m n : Nat) (s : State), State.cycles (m + n) s = State.cycles n (State.cycles m s))

/-- `load` (R102): the checks in their order, each leaving the state as it was, then the replacement as one step. The order of the checks,
what is left alone and the largest image are the spec's own choices D25, D11, D26 (assumption 21). -/
def Obligations.LoadValidatesThenReplaces : Prop :=
  ∀ (s : State) (src : Source) (start : Word),
    (start.toNat % 4 ≠ 0 → s.call (.load src start) = (.error .misalignedStart, s)) ∧
    (start.toNat % 4 = 0 → src.read = none → s.call (.load src start) = (.error .unreadable, s)) ∧
    (∀ bytes, start.toNat % 4 = 0 → src.read = some bytes → bytes.length % 4 ≠ 0 →
      s.call (.load src start) = (.error .truncatedImage, s)) ∧
    (∀ bytes, start.toNat % 4 = 0 → src.read = some bytes → bytes.length % 4 = 0 → 2 ^ 30 < bytes.length / 4 →
      s.call (.load src start) = (.error .imageTooLarge, s)) ∧
    (∀ bytes, start.toNat % 4 = 0 → src.read = some bytes → bytes.length % 4 = 0 → bytes.length / 4 ≤ 2 ^ 30 →
      ∃ t, s.call (.load src start) = (.done, t) ∧ t.image = imageDecode s.cfg.hostOrder bytes ∧ t.ps = start ∧
        t.psize = bytes.length / 4 ∧ t.w.toNat = start.toNat / 4 ∧ t.fakePc = 0 ∧ t.clk = .stopped ∧ t.stopReq = false ∧
        t.cfg = s.cfg ∧ KeepsRegisters s t ∧ t.mem = s.mem ∧ t.freq = s.freq ∧ t.icount = s.icount)

/-- The program file (R103): consecutive 4-byte words in the host's byte order; in either order, word `k` is made of bytes `4k` to
`4k + 3`. -/
def Obligations.ProgramFileWords : Prop :=
  ∀ (order : ByteOrder) (bytes : List Byte), bytes.length % 4 = 0 →
    (imageDecode order bytes).length = bytes.length / 4 ∧
    ∀ k, k < bytes.length / 4 → ∃ c0 c1 c2 c3 : Byte,
      bytes[4 * k]? = some c0 ∧ bytes[4 * k + 1]? = some c1 ∧ bytes[4 * k + 2]? = some c2 ∧ bytes[4 * k + 3]? = some c3 ∧
      (imageDecode order bytes)[k]? = some
        (match order with
          | .little => shiftedByte c0 0 ||| shiftedByte c1 1 ||| shiftedByte c2 2 ||| shiftedByte c3 3
          | .big => shiftedByte c3 0 ||| shiftedByte c2 1 ||| shiftedByte c1 2 ||| shiftedByte c0 3)

/-- The clock state machine (R108, from R105 and R107): what `run` and `stop` do in each state. `run` while Running and `stop` while
Stopped are the spec's own choices D17, D18 (assumption 22). -/
def Obligations.ClockStateMachine : Prop :=
  (∀ s : State, s.call (.run 0) = (.error .invalidFrequency, s)) ∧
  (∀ (s : State) (f : BitVec 32), f ≠ 0 → s.call (.run f) = (.done, { s with clk := .running, freq := f })) ∧
  (∀ s : State, s.clk = .running → s.call .stop = (.count s.icount, { s with clk := .stopped, stopReq := false })) ∧
  (∀ s : State, s.clk = .stopped → s.call .stop = (.count s.icount, s))

/-- The driver's loop (R106, R107): nothing while Stopped; while Running, a pending stop request is honoured at the loop boundary and no
cycle runs, else one cycle runs, past the `Busy` guard; and a request followed by the next boundary is what `stop` does. When a stop
takes effect is the spec's own choice D18, and a stop in two halves, a request and a boundary, is the model's choice (assumption 22):
the second and the last clause rest on both. -/
def Obligations.DriverLoop : Prop :=
  (∀ s : State, s.clk = .stopped → s.driverIteration = s) ∧
  (∀ s : State, s.clk = .running → s.stopReq = true → s.driverIteration = { s with clk := .stopped, stopReq := false }) ∧
  (∀ s : State, s.clk = .running → s.stopReq = false → step s = .next s.driverIteration ∧ s.driverIteration.clk = .running) ∧
  (∀ s : State, s.requestStop.driverIteration = (s.call .stop).2)

/-- Every host call and every iteration of the driver's loop leaves a legal state legal. -/
def Obligations.HostKeepsLegalState : Prop :=
  ∀ s : State, s.Inv → (∀ c : HostCall, (s.call c).2.Inv) ∧ s.driverIteration.Inv ∧ s.requestStop.Inv

/-! ## Several cores over one Memory (20_memory.md rules R33, R38; 60_exceptions.md rule R93) -/

/-- After any events, every core sees the one shared Memory, and every core is in a legal state: sharing is by reference (R24, R93). -/
def Obligations.SharersSeeOneMemory : Prop :=
  ∀ (es : List Event) (n : System), n.Coherent → (∀ s ∈ n.cores, s.Inv) → n.memory.wf = true → n.memory.inBuffer = true →
    (System.events es n).Coherent ∧ (∀ s ∈ (System.events es n).cores, s.Inv) ∧ (System.events es n).memory.wf = true

/-- The lock makes an accessor call atomic (R33): while an agent is inside an accessor, whatever else happens, the Memory does not change
until that agent leaves. How waiting is modelled is the model's choice (assumption 25). -/
def Obligations.LockedMemoryIsUntouched : Prop :=
  ∀ (es : List Event) (n : System) (g : Agent), n.memory.lock = some g → (∀ c, Event.endAccess g c ∉ es) →
    (System.events es n).memory = n.memory

/-- The Memory is all that cores share (R93): an event of one core leaves every other core's own state as it was. The event itself does
to its core what the core does alone on the shared Memory, and the Memory it leaves is the one every sharer sees (R38, R67), wherever
the lock is free or the act needs no access; else the core waits and nothing happens. An agent that enters an accessor takes the lock,
and where it leaves, its call is done on the Memory and the lock is free (R33). Three points are the model's choice: waiting (assumption
25), a whole host `step(count)` as one event that waits as a whole (assumption 35, on which the clauses on `call` rest for that call),
and what a manual cycle does while the clock runs (assumption 36). -/
def Obligations.CoresShareNothingElse : Prop :=
  (∀ (n : System) (e : Event) (i j : Nat), (e = .tick i ∨ e = .manual i ∨ (∃ c, e = .call i c) ∨ e = .requestStop i) →
    j ≠ i → n.Coherent →
    (n.event e).cores[j]? = n.cores[j]?.map fun s => s.withMem (n.event e).memory) ∧
  (∀ (n : System) (i : Nat) (u : State), n.cores[i]? = some u →
    let s := u.withMem n.memory
    (n.memory.lock = none ∨ s.tickNeedsMemory = false → CoreActs n (n.event (.tick i)) i s.driverIteration) ∧
    (n.memory.lock = none ∨ s.touchesMemory = false → CoreActs n (n.event (.manual i)) i s.manualCycle) ∧
    (∀ c : HostCall, n.memory.lock = none ∨ c.needsMemory = false → CoreActs n (n.event (.call i c)) i (s.call c).2) ∧
    CoreActs n (n.event (.requestStop i)) i s.requestStop ∧
    (n.memory.lock ≠ none → s.tickNeedsMemory = true → n.event (.tick i) = n) ∧
    (n.memory.lock ≠ none → s.touchesMemory = true → n.event (.manual i) = n) ∧
    (∀ c : HostCall, n.memory.lock ≠ none → c.needsMemory = true → n.event (.call i c) = n)) ∧
  (∀ (n : System) (g : Agent), n.memory.lock = none → MemoryBecomes n (n.event (.beginAccess g)) { n.memory with lock := some g }) ∧
  (∀ (n : System) (g : Agent) (c : MemCall), n.memory.lock = some g →
    MemoryBecomes n (n.event (.endAccess g c)) { (n.memory.call c).2 with lock := none })

/-- A store is seen by every core that shares the Memory (R67, R38): where core `i`'s next cycle is a SW in range and core `j`'s is a LW of
the same address, a manual cycle of `i` and then one of `j` leave the stored value in `j`'s destination (0 where that is r0, R13). -/
def Obligations.SharersSeeAStore : Prop :=
  ∀ (n : System) (i j : Nat) (s u : State) (store load : Word) (rt rs rd base : Reg) (imm off : Imm16),
    n.Coherent → n.memory.lock = none → i ≠ j → n.cores[i]? = some s → n.cores[j]? = some u →
    s.clk = .stopped → s.fetch = some store → decode store = .listed (.sw rt rs imm) →
    u.clk = .stopped → u.fetch = some load → decode load = .listed (.lw rd base off) →
    u.ea base off = s.ea rs imm → n.memory.valid (s.ea rs imm) 4 = true →
    ∃ t, (System.events [.manual i, .manual j] n).cores[j]? = some t ∧ t.x rd = if rd = 0 then 0 else s.x rt

/-! ## Assembler notation (30_encoding.md rule R53) -/

/-- Label resolution is the inverse of BEQ and J (R53, derived there from R64 and R72): the immediate resolved for a label takes BEQ to it,
every label within -32768..32767 words has one, and the field resolved for a label J can reach takes J to it. Two points are the
model's own, DEDUCED (assumption 27): BEQ's difference is taken modulo 2^30, on which the first two clauses rest for a label across the
wrap, and under `image_relative` the reach test of the third clause compares the `fake_pc`s. -/
def Obligations.LabelsResolve : Prop :=
  (∀ (s : State) (label : WordAddr) (imm : Imm16), beqLabel label s.w = some imm → s.branchTarget imm = label) ∧
  (∀ (here : WordAddr) (off : Int), -32768 ≤ off → off ≤ 32767 →
    beqLabel (here + BitVec.ofInt 30 off) here = some (BitVec.ofInt 16 off)) ∧
  (∀ (s : State) (label : WordAddr), jReaches s.cfg.jBase s.psw s.w label = true →
    s.jumpTarget (jLabel s.cfg.jBase s.psw label) = label)

end
end

