-- ==== Sys2Proof/Laws/State.lean ====
section
/-!
SUPPORT. The small lemmas of the state: one per field per update, so that no later proof unfolds a record update. An update's own field
and the fields it leaves are said once each.
-/

namespace Sys2Proof.Machine

/-! ## State.setX -/

@[simp] theorem State.setX_cfg (s : State) (i : Reg) (v : Word) : (s.setX i v).cfg = s.cfg := rfl
@[simp] theorem State.setX_gpr (s : State) (i : Reg) (v : Word) : (s.setX i v).gpr = if i = 0#5 then s.gpr else s.gpr.set i.toNat v (i.isLt) := rfl
@[simp] theorem State.setX_w (s : State) (i : Reg) (v : Word) : (s.setX i v).w = s.w := rfl
@[simp] theorem State.setX_image (s : State) (i : Reg) (v : Word) : (s.setX i v).image = s.image := rfl
@[simp] theorem State.setX_ps (s : State) (i : Reg) (v : Word) : (s.setX i v).ps = s.ps := rfl
@[simp] theorem State.setX_clk (s : State) (i : Reg) (v : Word) : (s.setX i v).clk = s.clk := rfl
@[simp] theorem State.setX_freq (s : State) (i : Reg) (v : Word) : (s.setX i v).freq = s.freq := rfl
@[simp] theorem State.setX_icount (s : State) (i : Reg) (v : Word) : (s.setX i v).icount = s.icount := rfl
@[simp] theorem State.setX_stopReq (s : State) (i : Reg) (v : Word) : (s.setX i v).stopReq = s.stopReq := rfl
@[simp] theorem State.setX_mem (s : State) (i : Reg) (v : Word) : (s.setX i v).mem = s.mem := rfl

/-! ## State.setW -/

@[simp] theorem State.setW_cfg (s : State) (t : WordAddr) : (s.setW t).cfg = s.cfg := rfl
@[simp] theorem State.setW_gpr (s : State) (t : WordAddr) : (s.setW t).gpr = s.gpr := rfl
@[simp] theorem State.setW_w (s : State) (t : WordAddr) : (s.setW t).w = t := rfl
@[simp] theorem State.setW_image (s : State) (t : WordAddr) : (s.setW t).image = s.image := rfl
@[simp] theorem State.setW_ps (s : State) (t : WordAddr) : (s.setW t).ps = s.ps := rfl
@[simp] theorem State.setW_clk (s : State) (t : WordAddr) : (s.setW t).clk = s.clk := rfl
@[simp] theorem State.setW_freq (s : State) (t : WordAddr) : (s.setW t).freq = s.freq := rfl
@[simp] theorem State.setW_icount (s : State) (t : WordAddr) : (s.setW t).icount = s.icount := rfl
@[simp] theorem State.setW_stopReq (s : State) (t : WordAddr) : (s.setW t).stopReq = s.stopReq := rfl
@[simp] theorem State.setW_mem (s : State) (t : WordAddr) : (s.setW t).mem = s.mem := rfl

/-! ## State.advance -/

@[simp] theorem State.advance_cfg (s : State) : s.advance.cfg = s.cfg := rfl
@[simp] theorem State.advance_gpr (s : State) : s.advance.gpr = s.gpr := rfl
@[simp] theorem State.advance_w (s : State) : s.advance.w = s.w + 1#30 := rfl
@[simp] theorem State.advance_image (s : State) : s.advance.image = s.image := rfl
@[simp] theorem State.advance_ps (s : State) : s.advance.ps = s.ps := rfl
@[simp] theorem State.advance_clk (s : State) : s.advance.clk = s.clk := rfl
@[simp] theorem State.advance_freq (s : State) : s.advance.freq = s.freq := rfl
@[simp] theorem State.advance_icount (s : State) : s.advance.icount = s.icount := rfl
@[simp] theorem State.advance_stopReq (s : State) : s.advance.stopReq = s.stopReq := rfl
@[simp] theorem State.advance_mem (s : State) : s.advance.mem = s.mem := rfl

/-! ## State.tick -/

@[simp] theorem State.tick_cfg (s : State) : s.tick.cfg = s.cfg := rfl
@[simp] theorem State.tick_gpr (s : State) : s.tick.gpr = s.gpr := rfl
@[simp] theorem State.tick_w (s : State) : s.tick.w = s.w := rfl
@[simp] theorem State.tick_image (s : State) : s.tick.image = s.image := rfl
@[simp] theorem State.tick_ps (s : State) : s.tick.ps = s.ps := rfl
@[simp] theorem State.tick_clk (s : State) : s.tick.clk = s.clk := rfl
@[simp] theorem State.tick_freq (s : State) : s.tick.freq = s.freq := rfl
@[simp] theorem State.tick_icount (s : State) : s.tick.icount = s.icount + 1#64 := rfl
@[simp] theorem State.tick_stopReq (s : State) : s.tick.stopReq = s.stopReq := rfl
@[simp] theorem State.tick_mem (s : State) : s.tick.mem = s.mem := rfl

/-! ## State.memWrite -/

@[simp] theorem State.memWrite_cfg (s : State) (a v : Word) : (s.memWrite a v).cfg = s.cfg := rfl
@[simp] theorem State.memWrite_gpr (s : State) (a v : Word) : (s.memWrite a v).gpr = s.gpr := rfl
@[simp] theorem State.memWrite_w (s : State) (a v : Word) : (s.memWrite a v).w = s.w := rfl
@[simp] theorem State.memWrite_image (s : State) (a v : Word) : (s.memWrite a v).image = s.image := rfl
@[simp] theorem State.memWrite_ps (s : State) (a v : Word) : (s.memWrite a v).ps = s.ps := rfl
@[simp] theorem State.memWrite_clk (s : State) (a v : Word) : (s.memWrite a v).clk = s.clk := rfl
@[simp] theorem State.memWrite_freq (s : State) (a v : Word) : (s.memWrite a v).freq = s.freq := rfl
@[simp] theorem State.memWrite_icount (s : State) (a v : Word) : (s.memWrite a v).icount = s.icount := rfl
@[simp] theorem State.memWrite_stopReq (s : State) (a v : Word) : (s.memWrite a v).stopReq = s.stopReq := rfl
@[simp] theorem State.memWrite_mem (s : State) (a v : Word) : (s.memWrite a v).mem = s.mem.setWord a v := rfl

/-! ## State.withMem -/

@[simp] theorem State.withMem_cfg (s : State) (m : Memory) : (s.withMem m).cfg = s.cfg := rfl
@[simp] theorem State.withMem_gpr (s : State) (m : Memory) : (s.withMem m).gpr = s.gpr := rfl
@[simp] theorem State.withMem_w (s : State) (m : Memory) : (s.withMem m).w = s.w := rfl
@[simp] theorem State.withMem_image (s : State) (m : Memory) : (s.withMem m).image = s.image := rfl
@[simp] theorem State.withMem_ps (s : State) (m : Memory) : (s.withMem m).ps = s.ps := rfl
@[simp] theorem State.withMem_clk (s : State) (m : Memory) : (s.withMem m).clk = s.clk := rfl
@[simp] theorem State.withMem_freq (s : State) (m : Memory) : (s.withMem m).freq = s.freq := rfl
@[simp] theorem State.withMem_icount (s : State) (m : Memory) : (s.withMem m).icount = s.icount := rfl
@[simp] theorem State.withMem_stopReq (s : State) (m : Memory) : (s.withMem m).stopReq = s.stopReq := rfl
@[simp] theorem State.withMem_mem (s : State) (m : Memory) : (s.withMem m).mem = m := rfl

/-! ## State.finishStop -/

@[simp] theorem State.finishStop_cfg (s : State) : s.finishStop.cfg = s.cfg := rfl
@[simp] theorem State.finishStop_gpr (s : State) : s.finishStop.gpr = s.gpr := rfl
@[simp] theorem State.finishStop_w (s : State) : s.finishStop.w = s.w := rfl
@[simp] theorem State.finishStop_image (s : State) : s.finishStop.image = s.image := rfl
@[simp] theorem State.finishStop_ps (s : State) : s.finishStop.ps = s.ps := rfl
@[simp] theorem State.finishStop_clk (s : State) : s.finishStop.clk = .stopped := rfl
@[simp] theorem State.finishStop_freq (s : State) : s.finishStop.freq = s.freq := rfl
@[simp] theorem State.finishStop_icount (s : State) : s.finishStop.icount = s.icount := rfl
@[simp] theorem State.finishStop_stopReq (s : State) : s.finishStop.stopReq = false := rfl
@[simp] theorem State.finishStop_mem (s : State) : s.finishStop.mem = s.mem := rfl

/-! ## State.replaceImage -/

@[simp] theorem State.replaceImage_cfg (s : State) (b : List Byte) (start : Word) : (s.replaceImage b start).cfg = s.cfg := rfl
@[simp] theorem State.replaceImage_gpr (s : State) (b : List Byte) (start : Word) : (s.replaceImage b start).gpr = s.gpr := rfl
@[simp] theorem State.replaceImage_w (s : State) (b : List Byte) (start : Word) : (s.replaceImage b start).w = wordAddrOf start := rfl
@[simp] theorem State.replaceImage_image (s : State) (b : List Byte) (start : Word) : (s.replaceImage b start).image = imageDecode s.cfg.hostOrder b := rfl
@[simp] theorem State.replaceImage_ps (s : State) (b : List Byte) (start : Word) : (s.replaceImage b start).ps = start := rfl
@[simp] theorem State.replaceImage_clk (s : State) (b : List Byte) (start : Word) : (s.replaceImage b start).clk = .stopped := rfl
@[simp] theorem State.replaceImage_freq (s : State) (b : List Byte) (start : Word) : (s.replaceImage b start).freq = s.freq := rfl
@[simp] theorem State.replaceImage_icount (s : State) (b : List Byte) (start : Word) : (s.replaceImage b start).icount = s.icount := rfl
@[simp] theorem State.replaceImage_stopReq (s : State) (b : List Byte) (start : Word) : (s.replaceImage b start).stopReq = false := rfl
@[simp] theorem State.replaceImage_mem (s : State) (b : List Byte) (start : Word) : (s.replaceImage b start).mem = s.mem := rfl

/-! ## Memory.setWord -/

@[simp] theorem Memory.setWord_cfg (m : Memory) (a v : Word) : (m.setWord a v).cfg = m.cfg := rfl
@[simp] theorem Memory.setWord_lock (m : Memory) (a v : Word) : (m.setWord a v).lock = m.lock := rfl

/-! ## Memory.setByte -/

@[simp] theorem Memory.setByte_cfg (m : Memory) (a : Word) (v : Byte) : (m.setByte a v).cfg = m.cfg := rfl
@[simp] theorem Memory.setByte_lock (m : Memory) (a : Word) (v : Byte) : (m.setByte a v).lock = m.lock := rfl

end Sys2Proof.Machine
end

