-- ==== Sys2Proof/Laws/Memory.lean ====
section
/-!
SUPPORT. The laws of the memory device: what a byte reads as after each write, and that every operation keeps the canonical form and
the bounds of the buffer (20_memory.md rules R24 to R28).
-/

namespace Sys2Proof.Machine

/-! ## The list of cells -/

theorem lookupCell_eraseCell (cells : List Host.Cell) (a c : Nat) :
    lookupCell (eraseCell cells a) c = if c = a then unlistedByte else lookupCell cells c := by
  induction cells with
  | nil => simp [eraseCell, lookupCell]
  | cons head rest ih =>
    obtain ⟨k, b⟩ := head
    simp only [eraseCell, lookupCell]
    split
    · rw [ih]; split <;> simp_all
      intro h; omega
    · simp only [lookupCell, ih]; split <;> split <;> simp_all

theorem lookupCell_insertCell (cells : List Host.Cell) (a c : Nat) (v : Byte)
    (hfree : ∀ b, (a, b) ∉ cells) :
    lookupCell (insertCell cells a v) c = if c = a then v else lookupCell cells c := by
  induction cells with
  | nil => simp [insertCell, lookupCell, eq_comm]
  | cons head rest ih =>
    obtain ⟨k, b⟩ := head
    have hk : k ≠ a := fun e => hfree b (by simp [e])
    have hrest : ∀ b, (a, b) ∉ rest := fun b hb => hfree b (List.mem_cons_of_mem _ hb)
    simp only [insertCell]
    split
    · simp only [lookupCell, eq_comm]
    · simp only [lookupCell, ih hrest]
      by_cases hc : k = c
      · have : c ≠ a := by omega
        simp [hc, this]
      · simp [hc]

theorem not_mem_eraseCell (cells : List Host.Cell) (a : Nat) (b : Byte) : (a, b) ∉ eraseCell cells a := by
  induction cells with
  | nil => simp [eraseCell]
  | cons head rest ih =>
    obtain ⟨k, b'⟩ := head
    simp only [eraseCell]
    split
    · exact ih
    · simp only [List.mem_cons, Prod.mk.injEq, not_or]
      exact ⟨fun h => by simp_all, ih⟩

/-- Everything a byte write can do to a byte read, for every list. -/
theorem lookupCell_writeCell (cells : List Host.Cell) (a c : Nat) (v : Byte) :
    lookupCell (writeCell cells a v) c = if c = a then v else lookupCell cells c := by
  unfold writeCell
  split
  · rename_i hv
    rw [lookupCell_eraseCell, hv]
  · rw [lookupCell_insertCell _ _ _ _ (not_mem_eraseCell cells a), lookupCell_eraseCell]
    split <;> simp_all

/-! ## The canonical form -/

/-- A lower bound of the addresses may be lowered. -/
theorem cellsWf_mono {cells : List Host.Cell} {lo lo' : Nat} (h : lo' ≤ lo) (hw : cellsWf cells lo = true) :
    cellsWf cells lo' = true := by
  cases cells with
  | nil => rfl
  | cons head rest =>
    simp only [cellsWf, Bool.and_eq_true, decide_eq_true_eq] at hw ⊢
    exact ⟨⟨by omega, hw.1.2⟩, hw.2⟩

theorem cellsWf_eraseCell {cells : List Host.Cell} {lo : Nat} (a : Nat) (hw : cellsWf cells lo = true) :
    cellsWf (eraseCell cells a) lo = true := by
  induction cells generalizing lo with
  | nil => rfl
  | cons head rest ih =>
    obtain ⟨k, b⟩ := head
    simp only [cellsWf, Bool.and_eq_true, decide_eq_true_eq] at hw
    simp only [eraseCell]
    split
    · exact cellsWf_mono (by omega) (ih hw.2)
    · simp only [cellsWf, Bool.and_eq_true, decide_eq_true_eq]
      exact ⟨hw.1, ih hw.2⟩

theorem cellsWf_insertCell {cells : List Host.Cell} {lo a : Nat} {v : Byte} (hv : v ≠ unlistedByte) (hlo : lo ≤ a)
    (hfree : ∀ b, (a, b) ∉ cells) (hw : cellsWf cells lo = true) : cellsWf (insertCell cells a v) lo = true := by
  induction cells generalizing lo with
  | nil => simp [insertCell, cellsWf, hv, hlo]
  | cons head rest ih =>
    obtain ⟨k, b⟩ := head
    have hk : k ≠ a := fun e => hfree b (by simp [e])
    have hrest : ∀ b, (a, b) ∉ rest := fun b hb => hfree b (List.mem_cons_of_mem _ hb)
    simp only [cellsWf, Bool.and_eq_true, decide_eq_true_eq] at hw
    simp only [insertCell]
    split
    · simp only [cellsWf, Bool.and_eq_true, decide_eq_true_eq]
      exact ⟨⟨hlo, hv⟩, ⟨by omega, hw.1.2⟩, hw.2⟩
    · simp only [cellsWf, Bool.and_eq_true, decide_eq_true_eq]
      exact ⟨hw.1, ih (by omega) hrest hw.2⟩

/-- A byte write keeps the canonical form. -/
theorem cellsWf_writeCell {cells : List Host.Cell} (a : Nat) (v : Byte) (hw : cellsWf cells 0 = true) :
    cellsWf (writeCell cells a v) 0 = true := by
  unfold writeCell
  split
  · exact cellsWf_eraseCell a hw
  · rename_i hv
    exact cellsWf_insertCell hv (Nat.zero_le a) (not_mem_eraseCell cells a) (cellsWf_eraseCell a hw)

/-- `set_word` keeps the canonical form. -/
theorem Memory.setWord_wf {m : Memory} (a v : Word) (hw : m.wf = true) : (m.setWord a v).wf = true := by
  unfold Memory.setWord Memory.wf
  split
  · exact cellsWf_writeCell _ _ (cellsWf_writeCell _ _ (cellsWf_writeCell _ _ (cellsWf_writeCell _ _ hw)))
  · exact hw

/-- `set_byte` keeps the canonical form. -/
theorem Memory.setByte_wf {m : Memory} (a : Word) (v : Byte) (hw : m.wf = true) : (m.setByte a v).wf = true := by
  unfold Memory.setByte Memory.wf
  split
  · exact cellsWf_writeCell _ _ hw
  · exact hw

/-- A fresh Memory is in canonical form, and so is reset's. -/
theorem Memory.fresh_wf (cfg : MemConfig) : (Memory.fresh cfg).wf = true := rfl

theorem State.reset_mem_wf : State.reset.mem.wf = true := rfl

/-! ## The bounds of the buffer -/

theorem mem_eraseCell {cells : List Host.Cell} {a : Nat} {c : Host.Cell} (h : c ∈ eraseCell cells a) : c ∈ cells := by
  induction cells with
  | nil => exact h
  | cons head rest ih =>
    obtain ⟨k, b⟩ := head
    simp only [eraseCell] at h
    split at h
    · exact List.mem_cons_of_mem _ (ih h)
    · rcases List.mem_cons.mp h with rfl | h
      · exact List.mem_cons_self
      · exact List.mem_cons_of_mem _ (ih h)

theorem mem_insertCell {cells : List Host.Cell} {a : Nat} {v : Byte} {c : Host.Cell} (h : c ∈ insertCell cells a v) :
    c = (a, v) ∨ c ∈ cells := by
  induction cells with
  | nil => simpa [insertCell] using h
  | cons head rest ih =>
    obtain ⟨k, b⟩ := head
    simp only [insertCell] at h
    split at h
    · simpa using h
    · rcases List.mem_cons.mp h with rfl | h
      · exact .inr List.mem_cons_self
      · rcases ih h with h | h
        · exact .inl h
        · exact .inr (List.mem_cons_of_mem _ h)

/-- A byte write lists no address but the one it writes. -/
theorem mem_writeCell {cells : List Host.Cell} {a : Nat} {v : Byte} {c : Host.Cell} (h : c ∈ writeCell cells a v) :
    c.1 = a ∨ c ∈ cells := by
  unfold writeCell at h
  split at h
  · exact .inr (mem_eraseCell h)
  · rcases mem_insertCell h with h | h
    · exact .inl (by rw [h])
    · exact .inr (mem_eraseCell h)

/-- The bounds as a fact about each listed byte. -/
theorem Memory.inBuffer_iff (m : Memory) :
    m.inBuffer = true ↔ ∀ c ∈ m.cells, m.cfg.base.toNat ≤ c.1 ∧ c.1 < m.cfg.base.toNat + m.cfg.size := by
  simp [Memory.inBuffer]

/-- What an access in range says of its addresses (R25). -/
theorem Memory.valid_iff (m : Memory) (a : Word) (width : Nat) :
    m.valid a width = true ↔ m.cfg.base.toNat ≤ a.toNat ∧ a.toNat - m.cfg.base.toNat + width ≤ m.cfg.size := by
  simp [Memory.valid]

/-- `set_word` writes inside the buffer only. -/
theorem Memory.setWord_inBuffer {m : Memory} (a v : Word) (h : m.inBuffer = true) : (m.setWord a v).inBuffer = true := by
  rw [Memory.inBuffer_iff] at h ⊢
  intro c hc
  simp only [Memory.setWord] at hc ⊢
  split at hc
  · rename_i hv
    rw [Memory.valid_iff] at hv
    rcases mem_writeCell hc with h3 | hc
    · omega
    rcases mem_writeCell hc with h2 | hc
    · omega
    rcases mem_writeCell hc with h1 | hc
    · omega
    rcases mem_writeCell hc with h0 | hc
    · omega
    exact h c hc
  · exact h c hc

/-- `set_byte` writes inside the buffer only. -/
theorem Memory.setByte_inBuffer {m : Memory} (a : Word) (v : Byte) (h : m.inBuffer = true) :
    (m.setByte a v).inBuffer = true := by
  rw [Memory.inBuffer_iff] at h ⊢
  intro c hc
  simp only [Memory.setByte] at hc ⊢
  split at hc
  · rename_i hv
    rw [Memory.valid_iff] at hv
    rcases mem_writeCell hc with h0 | hc
    · omega
    exact h c hc
  · exact h c hc

/-! ## Reading after writing -/

/-- Everything `set_word` can do to a byte (R27). -/
theorem Memory.byteAt_setWord (m : Memory) (a v : Word) (c : Nat) :
    (m.setWord a v).byteAt c =
      if m.valid a 4 = true ∧ a.toNat ≤ c ∧ c < a.toNat + 4 then byteOfWord m.cfg.order v (c - a.toNat) else m.byteAt c := by
  unfold Memory.setWord Memory.byteAt
  by_cases hv : m.valid a 4 = true
  · simp only [hv, if_true, writeWordCells, lookupCell_writeCell, true_and]
    by_cases h3 : c = a.toNat + 3
    · simp [h3]
    by_cases h2 : c = a.toNat + 2
    · simp [h2]
    by_cases h1 : c = a.toNat + 1
    · simp [h1]
    by_cases h0 : c = a.toNat
    · simp [h0]
    · have : ¬ (a.toNat ≤ c ∧ c < a.toNat + 4) := by omega
      simp [h0, h1, h2, h3, this]
  · simp [hv]

/-- Everything `set_byte` can do to a byte (R28). -/
theorem Memory.byteAt_setByte (m : Memory) (a : Word) (v : Byte) (c : Nat) :
    (m.setByte a v).byteAt c = if m.valid a 1 = true ∧ c = a.toNat then v else m.byteAt c := by
  unfold Memory.setByte Memory.byteAt
  by_cases hv : m.valid a 1 = true
  · simp only [hv, if_true, lookupCell_writeCell, true_and]
  · simp [hv]

/-- A write moves no bound: what is in range stays in range. -/
@[simp] theorem Memory.valid_setWord (m : Memory) (a v b : Word) (width : Nat) :
    (m.setWord a v).valid b width = m.valid b width := rfl

@[simp] theorem Memory.valid_setByte (m : Memory) (a b : Word) (v : Byte) (width : Nat) :
    (m.setByte a v).valid b width = m.valid b width := rfl

/-- The four bytes of a word, put together again, are the word, in either order. -/
theorem wordOfBytes_byteOfWord (order : ByteOrder) (v : Word) :
    wordOfBytes order (byteOfWord order v 0) (byteOfWord order v 1) (byteOfWord order v 2) (byteOfWord order v 3) = v := by
  cases order <;> apply BitVec.eq_of_getLsbD_eq <;> intro i hi <;>
    simp only [wordOfBytes, byteOfWord, BitVec.getLsbD_append, BitVec.getLsbD_extractLsb'] <;>
    (split
     · simp_all
     · split
       · have : i - 8 < 8 := by omega
         simp only [this, decide_true, Bool.true_and]; congr 1; omega
       · split
         · have : i - 8 - 8 < 8 := by omega
           simp only [this, decide_true, Bool.true_and]; congr 1; omega
         · have : i - 8 - 8 - 8 < 8 := by omega
           simp only [this, decide_true, Bool.true_and]; congr 1; omega)

end Sys2Proof.Machine
end

