-- ==== Sys2Proof/Laws/Registers.lean ====
section
/-!
SUPPORT. What a register read gives after each update (10_state.md rule R13), and the derived views of the PC.
-/

namespace Sys2Proof.Machine

/-- `x[0]` reads 0 in every state. -/
@[simp] theorem State.x_zero (s : State) : s.x 0#5 = 0#32 := rfl

/-- A register read depends on the register file alone. -/
theorem State.x_congr {s t : State} (h : t.gpr = s.gpr) (j : Reg) : t.x j = s.x j := by
  simp only [State.x, h]

/-- Everything a register write can do to a register read. -/
theorem State.x_setX (s : State) (i j : Reg) (v : Word) :
    (s.setX i v).x j = if j = i ∧ j ≠ 0#5 then v else s.x j := by
  by_cases hj : j = 0#5
  · simp [State.x, hj]
  by_cases hji : j = i
  · subst hji; simp [State.x, hj]
  by_cases hi : i = 0#5
  · simp [State.x, hi, hj]
  · have hn : i.toNat ≠ j.toNat := fun h => hji (BitVec.eq_of_toNat_eq h.symm)
    simp [State.x, hi, hj, hji, Vector.getElem_set_ne, hn]

/-- A write to r0 is discarded. -/
@[simp] theorem State.setX_zero (s : State) (v : Word) : s.setX 0#5 v = s := rfl

@[simp] theorem State.x_setW (s : State) (t : WordAddr) (j : Reg) : (s.setW t).x j = s.x j := rfl
@[simp] theorem State.x_advance (s : State) (j : Reg) : s.advance.x j = s.x j := rfl
@[simp] theorem State.x_tick (s : State) (j : Reg) : s.tick.x j = s.x j := rfl
@[simp] theorem State.x_memWrite (s : State) (a v : Word) (j : Reg) : (s.memWrite a v).x j = s.x j := rfl
@[simp] theorem State.x_withMem (s : State) (m : Memory) (j : Reg) : (s.withMem m).x j = s.x j := rfl
@[simp] theorem State.x_finishStop (s : State) (j : Reg) : s.finishStop.x j = s.x j := rfl
@[simp] theorem State.x_replaceImage (s : State) (b : List Byte) (start : Word) (j : Reg) :
    (s.replaceImage b start).x j = s.x j := rfl

/-- r0's home keeps its 0 through a register write. -/
theorem State.setX_gpr_zero (s : State) (i : Reg) (v : Word) : (s.setX i v).gpr[0] = s.gpr[0] := by
  by_cases hi : i = 0#5
  · simp [hi]
  · have hn : i.toNat ≠ 0 := fun h => hi (BitVec.eq_of_toNat_eq h)
    simp [hi, Vector.getElem_set_ne, hn]

/-- What the fetch reads depends on the image, `PS` and `W` alone. -/
theorem State.fetch_congr {s t : State} (hi : t.image = s.image) (hp : t.ps = s.ps) (hw : t.w = s.w) : t.fetch = s.fetch := by
  simp only [State.fetch, State.fakePc, State.psw, hi, hp, hw]

/-- The word address of a word address's byte address is itself (R17). -/
@[simp] theorem wordAddrOf_byteAddrOf (t : WordAddr) : wordAddrOf (byteAddrOf t) = t := by
  apply BitVec.eq_of_getLsbD_eq
  intro i hi
  simp only [wordAddrOf, byteAddrOf, BitVec.getLsbD_extractLsb', BitVec.getLsbD_append, hi, decide_true, Bool.true_and]
  have h2 : ¬ 2 + i < 2 := by omega
  simp [h2]

end Sys2Proof.Machine
end

