-- ==== Sys2Proof/Laws/Exec.lean ====
section
/-!
SUPPORT. Everything an instruction and a cycle can do, said once: an instruction ends in one of three ways (Machine/Ops.lean), and it
always ends.
-/

namespace Sys2Proof.Machine

/-! ## The three ends of an instruction -/

theorem State.writeReg_eq_next {s t : State} {rd : Reg} {v : Word} (h : s.writeReg rd v = .next t) :
    t = (s.setX rd v).advance := by cases h; rfl

theorem State.goTo_eq_next {s t : State} {nextW : WordAddr} (h : s.goTo nextW = .next t) : t = s.setW nextW := by
  cases h; rfl

theorem State.store_eq_next {s t : State} {a v : Word} (h : s.store a v = .next t) : t = (s.memWrite a v).advance := by
  cases h; rfl

/-- What an instruction can do to the state: write one register and advance, write the PC alone, or write one word of the Memory and
advance. -/
inductive ExecCase (s : State) : State → Prop where
  | reg (rd : Reg) (v : Word) : ExecCase s (s.setX rd v).advance
  | pc (nextW : WordAddr) : ExecCase s (s.setW nextW)
  | mem (a v : Word) : ExecCase s (s.memWrite a v).advance

/-- Every instruction ends, in one of the three ways. -/
theorem exec_cases (i : Instr) (s : State) : ∃ t, exec i s = .next t ∧ ExecCase s t := by
  cases i <;> first
    | exact ⟨_, rfl, .reg _ _⟩
    | exact ⟨_, rfl, .pc _⟩
    | exact ⟨_, rfl, .mem _ _⟩

/-! ## The cycle -/

theorem step_of_past_end {s : State} (h : s.fetch = none) : step s = .next s.advance.tick := by
  simp [step, h, State.pastEnd]

theorem step_of_unlisted {s : State} {inst : Word} (h : s.fetch = some inst) (hd : decode inst = .nopUnlisted) :
    step s = .next s.advance.tick := by
  simp [step, h, hd, State.noOp]

theorem step_of_listed {s t : State} {inst : Word} {i : Instr} (h : s.fetch = some inst) (hd : decode inst = .listed i)
    (he : exec i s = .next t) : step s = .next t.tick := by
  simp [step, h, hd, he, countCycle]

/-- What a cycle can do: one of the three ends, or the advance alone, and always the count. -/
inductive StepCase (s : State) : State → Prop where
  | advance : StepCase s s.advance.tick
  | exec (t : State) (h : ExecCase s t) : StepCase s t.tick

/-- Every cycle's next state is one of these. -/
theorem step_cases {s t : State} (h : step s = .next t) : StepCase s t := by
  cases hf : s.fetch with
  | none => rw [step_of_past_end hf] at h; cases h; exact .advance
  | some inst =>
    cases hd : decode inst with
    | nopUnlisted => rw [step_of_unlisted hf hd] at h; cases h; exact .advance
    | listed i =>
      obtain ⟨u, hu, hc⟩ := exec_cases i s
      rw [step_of_listed hf hd hu] at h; cases h; exact .exec u hc

/-- A cycle as a function agrees with `step` where `step` goes on. -/
theorem State.cycle_of_step {s t : State} (h : step s = .next t) : s.cycle = t := by
  simp [State.cycle, h]

@[simp] theorem State.cycles_zero (s : State) : State.cycles 0 s = s := rfl
@[simp] theorem State.cycles_succ (n : Nat) (s : State) : State.cycles (n + 1) s = State.cycles n s.cycle := rfl

end Sys2Proof.Machine
end

