-- ==== Sys2Proof/Laws/Control.lean ====
section
/-!
SUPPORT. What the host's calls, the loader and an event of one core can do, said once each.
-/

namespace Sys2Proof.Machine

/-- A program file gives one word per four bytes (R103). -/
theorem imageDecode_length (order : ByteOrder) : ∀ bytes : List Byte, (imageDecode order bytes).length = bytes.length / 4
  | [] => by simp [imageDecode]
  | [_] => by simp [imageDecode]
  | [_, _] => by simp [imageDecode]
  | [_, _, _] => by simp [imageDecode]
  | _ :: _ :: _ :: _ :: rest => by
    simp only [imageDecode, List.length_cons, imageDecode_length order rest]
    omega

/-- What it takes for `load`'s checks to pass (R102). -/
theorem loadCheck_eq_ok {src : Source} {start : Word} {bytes : List Byte} (h : loadCheck src start = .ok bytes) :
    start.toNat % 4 = 0 ∧ src.read = some bytes ∧ bytes.length % 4 = 0 ∧ bytes.length / 4 ≤ 2 ^ 30 := by
  simp only [loadCheck] at h
  split at h
  · cases h
  · split at h
    · cases h
    · rename_i b hr
      split at h
      · cases h
      · split at h
        · cases h
        · cases h
          exact ⟨by omega, hr, by omega, by omega⟩

/-- A `load` reports an error and changes nothing, or replaces the image (R102). -/
theorem State.load_cases (s : State) (src : Source) (start : Word) :
    (∃ e, loadCheck src start = .error e ∧ s.load src start = (.error e, s)) ∨
      ∃ bytes, loadCheck src start = .ok bytes ∧ s.load src start = (.done, s.replaceImage bytes start) := by
  cases h : loadCheck src start with
  | error e => exact .inl ⟨e, rfl, by simp [State.load, h]⟩
  | ok bytes => exact .inr ⟨bytes, rfl, by simp [State.load, h]⟩

/-- The next fetch of a state a word was placed in reads that word. -/
theorem State.fetch_placeWord (s : State) (inst : Word) : (s.placeWord inst).fetch = some inst := by
  unfold State.placeWord
  split
  · rename_i h
    exact List.getElem?_set_self h
  · simp [State.fetch, State.fakePc, State.psw, State.pcByte]

/-- The next step after `withFetchWord` fetches the table's word. -/
theorem State.fetch_withFetchWord (s : State) (nbits w : Nat) : (s.withFetchWord nbits w).fetch = some (tableWord nbits w) :=
  s.fetch_placeWord _

/-- An act of a core does nothing, or leaves what its function leaves of the core with the shared Memory. -/
theorem System.act_cases (n : System) (i : Nat) (needs : State → Bool) (f : State → State) :
    n.act i needs f = n ∨
      ∃ s, n.cores[i]? = some s ∧ (needs (s.withMem n.memory) = false ∨ n.memory.lock = none) ∧
        n.act i needs f = n.replaceCore i (f (s.withMem n.memory)) := by
  unfold System.act
  split
  · exact .inl rfl
  · rename_i s hs
    by_cases hn : (needs (s.withMem n.memory) && n.memory.lock.isSome) = true
    · left; simp [hn]
    · right
      refine ⟨s, hs, ?_, by simp [hn]⟩
      cases hd : needs (s.withMem n.memory)
      · exact .inl rfl
      · right; simpa [hd] using hn

/-- An act that the lock does not hold up takes place. -/
theorem System.act_of_free {n : System} {i : Nat} {u : State} {needs : State → Bool} (hu : n.cores[i]? = some u)
    (h : n.memory.lock = none ∨ needs (u.withMem n.memory) = false) (f : State → State) :
    n.act i needs f = n.replaceCore i (f (u.withMem n.memory)) := by
  have hw : (needs (u.withMem n.memory) && n.memory.lock.isSome) = false := by rcases h with h | h <;> simp [h]
  simp [System.act, hu, hw]

/-- An act that needs the Memory while the lock is held does nothing. -/
theorem System.act_of_held {n : System} {i : Nat} {u : State} {needs : State → Bool} (hu : n.cores[i]? = some u)
    (hl : n.memory.lock ≠ none) (hn : needs (u.withMem n.memory) = true) (f : State → State) : n.act i needs f = n := by
  simp [System.act, hu, hn, Option.isSome_iff_ne_none, hl]

@[simp] theorem System.setMemory_memory (n : System) (m : Memory) : (n.setMemory m).memory = m := rfl
@[simp] theorem System.setMemory_cores (n : System) (m : Memory) : (n.setMemory m).cores = n.cores.map fun s => s.withMem m := rfl
@[simp] theorem System.replaceCore_memory (n : System) (i : Nat) (t : State) : (n.replaceCore i t).memory = t.mem := rfl
@[simp] theorem System.replaceCore_cores (n : System) (i : Nat) (t : State) :
    (n.replaceCore i t).cores = (n.cores.set i t).map fun s => s.withMem t.mem := rfl

/-- The core that acted is what its act left. -/
theorem System.replaceCore_self {n : System} {i : Nat} {u : State} (hu : n.cores[i]? = some u) (t : State) :
    (n.replaceCore i t).cores[i]? = some t := by
  have hi : i < n.cores.length := (List.getElem?_eq_some_iff.mp hu).1
  simp [hi, State.withMem]

/-- Every other core keeps its own state and sees the Memory the act left. -/
theorem System.replaceCore_other {n : System} {i j : Nat} (hij : j ≠ i) (t : State) :
    (n.replaceCore i t).cores[j]? = n.cores[j]?.map fun u => u.withMem t.mem := by
  simp [List.getElem?_set_ne hij.symm]

end Sys2Proof.Machine
end

