-- ==== Sys2Proof/Laws/Decode.lean ====
section
/-!
SUPPORT. The fields of an encoded word (30_encoding.md rules R43, R44): each layout gives back what was put into it. With these no
proof about a whole instruction looks at bits.
-/

namespace Sys2Proof

/-! ## R-type -/

@[simp] theorem opcodeOf_encodeR (rs rt rd : Reg) (shamt : Shamt) (funct : BitVec 6) : opcodeOf (encodeR rs rt rd shamt funct) = 0x00#6 := by
  apply BitVec.eq_of_getLsbD_eq
  intro i hi
  simp only [opcodeOf, encodeR, BitVec.getLsbD_append, BitVec.getLsbD_extractLsb']
  grind

@[simp] theorem rsOf_encodeR (rs rt rd : Reg) (shamt : Shamt) (funct : BitVec 6) : rsOf (encodeR rs rt rd shamt funct) = rs := by
  apply BitVec.eq_of_getLsbD_eq
  intro i hi
  simp only [rsOf, encodeR, BitVec.getLsbD_append, BitVec.getLsbD_extractLsb']
  grind

@[simp] theorem rtOf_encodeR (rs rt rd : Reg) (shamt : Shamt) (funct : BitVec 6) : rtOf (encodeR rs rt rd shamt funct) = rt := by
  apply BitVec.eq_of_getLsbD_eq
  intro i hi
  simp only [rtOf, encodeR, BitVec.getLsbD_append, BitVec.getLsbD_extractLsb']
  grind

@[simp] theorem rdOf_encodeR (rs rt rd : Reg) (shamt : Shamt) (funct : BitVec 6) : rdOf (encodeR rs rt rd shamt funct) = rd := by
  apply BitVec.eq_of_getLsbD_eq
  intro i hi
  simp only [rdOf, encodeR, BitVec.getLsbD_append, BitVec.getLsbD_extractLsb']
  grind

@[simp] theorem shamtOf_encodeR (rs rt rd : Reg) (shamt : Shamt) (funct : BitVec 6) : shamtOf (encodeR rs rt rd shamt funct) = shamt := by
  apply BitVec.eq_of_getLsbD_eq
  intro i hi
  simp only [shamtOf, encodeR, BitVec.getLsbD_append, BitVec.getLsbD_extractLsb']
  grind

@[simp] theorem functOf_encodeR (rs rt rd : Reg) (shamt : Shamt) (funct : BitVec 6) : functOf (encodeR rs rt rd shamt funct) = funct := by
  apply BitVec.eq_of_getLsbD_eq
  intro i hi
  simp only [functOf, encodeR, BitVec.getLsbD_append, BitVec.getLsbD_extractLsb']
  grind

/-! ## I-type -/

@[simp] theorem opcodeOf_encodeI (opcode : BitVec 6) (rs rt : Reg) (imm : Imm16) : opcodeOf (encodeI opcode rs rt imm) = opcode := by
  apply BitVec.eq_of_getLsbD_eq
  intro i hi
  simp only [opcodeOf, encodeI, BitVec.getLsbD_append, BitVec.getLsbD_extractLsb']
  grind

@[simp] theorem rsOf_encodeI (opcode : BitVec 6) (rs rt : Reg) (imm : Imm16) : rsOf (encodeI opcode rs rt imm) = rs := by
  apply BitVec.eq_of_getLsbD_eq
  intro i hi
  simp only [rsOf, encodeI, BitVec.getLsbD_append, BitVec.getLsbD_extractLsb']
  grind

@[simp] theorem rtOf_encodeI (opcode : BitVec 6) (rs rt : Reg) (imm : Imm16) : rtOf (encodeI opcode rs rt imm) = rt := by
  apply BitVec.eq_of_getLsbD_eq
  intro i hi
  simp only [rtOf, encodeI, BitVec.getLsbD_append, BitVec.getLsbD_extractLsb']
  grind

@[simp] theorem immOf_encodeI (opcode : BitVec 6) (rs rt : Reg) (imm : Imm16) : immOf (encodeI opcode rs rt imm) = imm := by
  apply BitVec.eq_of_getLsbD_eq
  intro i hi
  simp only [immOf, encodeI, BitVec.getLsbD_append, BitVec.getLsbD_extractLsb']
  grind

/-! ## J-type -/

@[simp] theorem opcodeOf_encodeJ (target : Target26) : opcodeOf (encodeJ target) = 0x02#6 := by
  apply BitVec.eq_of_getLsbD_eq
  intro i hi
  simp only [opcodeOf, encodeJ, BitVec.getLsbD_append, BitVec.getLsbD_extractLsb']
  grind

@[simp] theorem targetOf_encodeJ (target : Target26) : targetOf (encodeJ target) = target := by
  apply BitVec.eq_of_getLsbD_eq
  intro i hi
  simp only [targetOf, encodeJ, BitVec.getLsbD_append, BitVec.getLsbD_extractLsb']
  grind

/-! ## What the bits under a mask say -/

/-- The mask of the I-type and J-type rows, bit by bit. -/
theorem getLsbD_maskIJ (i : Nat) : (0xFC000000#32).getLsbD i = (decide (26 ≤ i) && decide (i < 32)) := by
  by_cases h : i < 32
  · have key : ∀ j : Fin 32, (0xFC000000#32).getLsbD j = (decide (26 ≤ j.val) && decide (j.val < 32)) := by decide
    exact key ⟨i, h⟩
  · rw [BitVec.getLsbD_of_ge _ _ (by omega)]; simp [h]

/-- The mask of the R-type rows, bit by bit. -/
theorem getLsbD_maskR (i : Nat) : (0xFC00003F#32).getLsbD i = (decide (i < 6) || decide (26 ≤ i) && decide (i < 32)) := by
  by_cases h : i < 32
  · have key : ∀ j : Fin 32,
        (0xFC00003F#32).getLsbD j = (decide (j.val < 6) || decide (26 ≤ j.val) && decide (j.val < 32)) := by decide
    exact key ⟨i, h⟩
  · rw [BitVec.getLsbD_of_ge _ _ (by omega)]; simp [h]; omega

/-- The bits under the mask 0xFC000000 are the opcode. -/
theorem and_maskIJ_eq_iff (w : Word) (opcode : BitVec 6) :
    w &&& 0xFC000000#32 = opcode ++ 0#26 ↔ opcodeOf w = opcode := by
  constructor
  · intro h
    apply BitVec.eq_of_getLsbD_eq
    intro i hi
    have := congrArg (fun v => v.getLsbD (26 + i)) h
    simp only [BitVec.getLsbD_and, getLsbD_maskIJ, BitVec.getLsbD_append, opcodeOf, BitVec.getLsbD_extractLsb'] at this ⊢
    grind
  · rintro rfl
    apply BitVec.eq_of_getLsbD_eq
    intro i hi
    simp only [BitVec.getLsbD_and, getLsbD_maskIJ, BitVec.getLsbD_append, opcodeOf, BitVec.getLsbD_extractLsb',
      BitVec.getLsbD_zero]
    grind

/-- The bits under the mask 0xFC00003F are the opcode and the funct. -/
theorem and_maskR_eq_iff (w : Word) (opcode funct : BitVec 6) :
    w &&& 0xFC00003F#32 = opcode ++ 0#20 ++ funct ↔ opcodeOf w = opcode ∧ functOf w = funct := by
  constructor
  · intro h
    constructor
    · apply BitVec.eq_of_getLsbD_eq
      intro i hi
      have := congrArg (fun v => v.getLsbD (26 + i)) h
      simp only [BitVec.getLsbD_and, getLsbD_maskR, BitVec.getLsbD_append, opcodeOf, BitVec.getLsbD_extractLsb'] at this ⊢
      grind
    · apply BitVec.eq_of_getLsbD_eq
      intro i hi
      have := congrArg (fun v => v.getLsbD i) h
      simp only [BitVec.getLsbD_and, getLsbD_maskR, BitVec.getLsbD_append, functOf, BitVec.getLsbD_extractLsb'] at this ⊢
      grind
  · rintro ⟨rfl, rfl⟩
    apply BitVec.eq_of_getLsbD_eq
    intro i hi
    simp only [BitVec.getLsbD_and, getLsbD_maskR, BitVec.getLsbD_append, opcodeOf, functOf, BitVec.getLsbD_extractLsb',
      BitVec.getLsbD_zero]
    grind

end Sys2Proof
end

