-- ==== Sys2Proof/Laws/Operands.lean ====
section
/-!
SUPPORT. The operand forms as numbers (00_scope.md rules R7, R8; 30_encoding.md rule R45): the extensions keep the signed or unsigned
value, and a sum of bit vectors is the sum of the numbers modulo the width.
-/

namespace Sys2Proof.Machine

@[simp] theorem sext16_toInt (v : Imm16) : (sext16 v).toInt = v.toInt := by
  rw [sext16, BitVec.toInt_signExtend_of_le (by omega)]

@[simp] theorem sext16to30_toInt (v : Imm16) : (sext16to30 v).toInt = v.toInt := by
  rw [sext16to30, BitVec.toInt_signExtend_of_le (by omega)]

@[simp] theorem zext16_toNat (v : Imm16) : (zext16 v).toNat = v.toNat := by
  have := v.isLt
  simp [zext16]
  omega

/-- A sum read as numbers, the second operand signed. -/
theorem toNat_add_toInt {n : Nat} (a b : BitVec n) : ((a + b).toNat : Int) = ((a.toNat : Int) + b.toInt) % 2 ^ n := by
  have h : ((b.toNat : Int)).bmod (2 ^ n) % (2 ^ n : Int) = (b.toNat : Int) % (2 ^ n : Int) := by
    simpa using Int.bmod_emod (x := (b.toNat : Int)) (m := 2 ^ n)
  rw [BitVec.toInt_eq_toNat_bmod, BitVec.toNat_add]
  push_cast
  rw [Int.add_emod, Int.add_emod (a.toNat : Int) (Int.bmod _ _), h]

/-- The byte address of a word address is four times it. -/
theorem byteAddrOf_toNat (t : WordAddr) : (byteAddrOf t).toNat = t.toNat * 4 := by
  have h : (byteAddrOf t).toNat = t.toNat <<< 2 ||| (0#2).toNat := BitVec.toNat_append _ _
  rw [h]
  simp [Nat.shiftLeft_eq]

/-- The word address of a byte address is its quotient by four. -/
theorem wordAddrOf_toNat (b : Word) : (wordAddrOf b).toNat = b.toNat / 4 := by
  have := b.isLt
  simp [wordAddrOf, BitVec.extractLsb'_toNat, Nat.shiftRight_eq_div_pow]
  omega

/-- Replacing the low 26 bits is putting the target below the high four. -/
theorem replaceLow26_eq_append (t : WordAddr) (target : Target26) : replaceLow26 t target = t.extractLsb' 26 4 ++ target := by
  have hb : ∀ i < 30, (0x3C000000#30).getLsbD i = decide (26 ≤ i) := by decide
  apply BitVec.eq_of_getLsbD_eq
  intro i hi
  simp only [replaceLow26, BitVec.getLsbD_or, BitVec.getLsbD_and, hb i hi, BitVec.getLsbD_append, BitVec.getLsbD_extractLsb',
    BitVec.zeroExtend_eq_setWidth, BitVec.getLsbD_setWidth]
  grind

end Sys2Proof.Machine
end

