-- ==== Sys2Proof/Laws/PerInstr.lean ====
section
/-!
SUPPORT. Facts about each instruction as syntax. SelectsRow: every operand fits its field, and the encoded word selects a row of the
opcode map (30_encoding.md rules R44, R47).
-/

namespace Sys2Proof

@[simp] theorem regOk_toNat (r : Reg) : regOk r.toNat = true := by simpa [regOk] using r.isLt
@[simp] theorem shamtOk_toNat (s : Shamt) : shamtOk s.toNat = true := by simpa [shamtOk] using s.isLt
@[simp] theorem uimm16Ok_toNat (v : Imm16) : uimm16Ok v.toNat = true := by simpa [uimm16Ok] using v.isLt
@[simp] theorem target26Ok_toNat (t : Target26) : target26Ok t.toNat = true := by simpa [target26Ok] using t.isLt
@[simp] theorem simm16Ok_toInt (v : Imm16) : simm16Ok v.toInt = true := by
  have h1 := BitVec.toInt_lt (x := v)
  have h2 := BitVec.le_toInt (x := v)
  simp only [simm16Ok, Bool.and_eq_true, decide_eq_true_eq]
  omega

namespace Laws.SelectsRow

/-- The instruction's operands fit and its word selects a row. -/
def Statement (i : Instr) : Prop :=
  i.wellFormed = true ∧ opcodeTable.any (fun row => row.selects (encode i)) = true

/-- An R-type word selects the row of its funct. -/
theorem of_funct {w : Word} {i : Instr} (row : OpcodeRow) (funct : BitVec 6) (hw : i.wellFormed = true) (he : encode i = w)
    (hrow : row ∈ opcodeTable) (hm : row.mask = 0xFC00003F#32) (hb : row.bits = 0x00#6 ++ 0#20 ++ funct)
    (ho : opcodeOf w = 0x00#6) (hf : functOf w = funct) : Statement i := by
  refine ⟨hw, List.any_eq_true.mpr ⟨row, hrow, ?_⟩⟩
  rw [he, OpcodeRow.selects, hm, hb, beq_iff_eq]
  exact (and_maskR_eq_iff w 0x00#6 funct).mpr ⟨ho, hf⟩

/-- An I-type or J-type word selects the row of its opcode. -/
theorem of_opcode {w : Word} {i : Instr} (row : OpcodeRow) (opcode : BitVec 6) (hw : i.wellFormed = true) (he : encode i = w)
    (hrow : row ∈ opcodeTable) (hm : row.mask = 0xFC000000#32) (hb : row.bits = opcode ++ 0#26)
    (ho : opcodeOf w = opcode) : Statement i := by
  refine ⟨hw, List.any_eq_true.mpr ⟨row, hrow, ?_⟩⟩
  rw [he, OpcodeRow.selects, hm, hb, beq_iff_eq]
  exact (and_maskIJ_eq_iff w opcode).mpr ho

theorem and (rd rs rt : Reg) : Statement (.and rd rs rt) :=
  of_funct (opcodeTable[0]) 0x24#6 (by simp [Instr.wellFormed]) rfl (List.getElem_mem _) rfl rfl
    (opcodeOf_encodeR ..) (functOf_encodeR ..)

theorem or (rd rs rt : Reg) : Statement (.or rd rs rt) :=
  of_funct (opcodeTable[1]) 0x25#6 (by simp [Instr.wellFormed]) rfl (List.getElem_mem _) rfl rfl
    (opcodeOf_encodeR ..) (functOf_encodeR ..)

theorem xor (rd rs rt : Reg) : Statement (.xor rd rs rt) :=
  of_funct (opcodeTable[2]) 0x27#6 (by simp [Instr.wellFormed]) rfl (List.getElem_mem _) rfl rfl
    (opcodeOf_encodeR ..) (functOf_encodeR ..)

theorem add (rd rs rt : Reg) : Statement (.add rd rs rt) :=
  of_funct (opcodeTable[3]) 0x20#6 (by simp [Instr.wellFormed]) rfl (List.getElem_mem _) rfl rfl
    (opcodeOf_encodeR ..) (functOf_encodeR ..)

theorem sub (rd rs rt : Reg) : Statement (.sub rd rs rt) :=
  of_funct (opcodeTable[4]) 0x22#6 (by simp [Instr.wellFormed]) rfl (List.getElem_mem _) rfl rfl
    (opcodeOf_encodeR ..) (functOf_encodeR ..)

theorem sll (rd rt : Reg) (shamt : Shamt) : Statement (.sll rd rt shamt) :=
  of_funct (opcodeTable[5]) 0x00#6 (by simp [Instr.wellFormed]) rfl (List.getElem_mem _) rfl rfl
    (opcodeOf_encodeR ..) (functOf_encodeR ..)

theorem srl (rd rt : Reg) (shamt : Shamt) : Statement (.srl rd rt shamt) :=
  of_funct (opcodeTable[6]) 0x02#6 (by simp [Instr.wellFormed]) rfl (List.getElem_mem _) rfl rfl
    (opcodeOf_encodeR ..) (functOf_encodeR ..)

theorem slt (rd rs rt : Reg) : Statement (.slt rd rs rt) :=
  of_funct (opcodeTable[7]) 0x2a#6 (by simp [Instr.wellFormed]) rfl (List.getElem_mem _) rfl rfl
    (opcodeOf_encodeR ..) (functOf_encodeR ..)

theorem beq (rs rt : Reg) (imm : Imm16) : Statement (.beq rs rt imm) :=
  of_opcode (opcodeTable[8]) 0x04#6 (by simp [Instr.wellFormed]) rfl (List.getElem_mem _) rfl rfl (opcodeOf_encodeI ..)

theorem lw (rt rs : Reg) (imm : Imm16) : Statement (.lw rt rs imm) :=
  of_opcode (opcodeTable[9]) 0x23#6 (by simp [Instr.wellFormed]) rfl (List.getElem_mem _) rfl rfl (opcodeOf_encodeI ..)

theorem sw (rt rs : Reg) (imm : Imm16) : Statement (.sw rt rs imm) :=
  of_opcode (opcodeTable[10]) 0x2b#6 (by simp [Instr.wellFormed]) rfl (List.getElem_mem _) rfl rfl (opcodeOf_encodeI ..)

theorem andi (rt rs : Reg) (imm : Imm16) : Statement (.andi rt rs imm) :=
  of_opcode (opcodeTable[11]) 0x0c#6 (by simp [Instr.wellFormed]) rfl (List.getElem_mem _) rfl rfl (opcodeOf_encodeI ..)

theorem ori (rt rs : Reg) (imm : Imm16) : Statement (.ori rt rs imm) :=
  of_opcode (opcodeTable[12]) 0x0d#6 (by simp [Instr.wellFormed]) rfl (List.getElem_mem _) rfl rfl (opcodeOf_encodeI ..)

theorem addi (rt rs : Reg) (imm : Imm16) : Statement (.addi rt rs imm) :=
  of_opcode (opcodeTable[13]) 0x08#6 (by simp [Instr.wellFormed]) rfl (List.getElem_mem _) rfl rfl (opcodeOf_encodeI ..)

theorem j (target : Target26) : Statement (.j target) :=
  of_opcode (opcodeTable[14]) 0x02#6 (by simp [Instr.wellFormed]) rfl (List.getElem_mem _) rfl rfl (opcodeOf_encodeJ ..)

end Laws.SelectsRow

end Sys2Proof
end

