-- ==== Sys2Proof/Tests/Slice0.lean ====
section
/-!
SUPPORT. Tests of the model. Expected values come from 95_test_vectors.md (the vector is named) or from the rule named beside the test.
The last part shows, for every statement that has hypotheses, a concrete state and operands that meet them.
-/

namespace Sys2Proof.Tests

open Sys2Proof.Machine Sys2Proof.Claims

/-! ## Helpers -/

/-- The next state, if there is one. -/
def nextState : Host.Outcome State Fault Refusal → Option State
  | .next t => some t
  | .fault _ => none
  | .refused _ => none

/-- A state with registers set. -/
def withRegs (s : State) : List (Reg × Word) → State
  | [] => s
  | (r, v) :: rest => withRegs (s.setX r v) rest

/-- The set-up of 95_test_vectors.md section 2: one word at `W = 0x10` in an image loaded at `PS = 0x40`. -/
def vec (inst : Word) (regs : List (Reg × Word)) : State :=
  withRegs { State.reset with image := [inst], ps := 0x40, w := 0x10 } regs

/-- The set-up of section 2.3: the word at `W = 0x100005` in an image loaded at `PS = 0x00400000`, `fake_pc = 5`. -/
def branchVec (inst : Word) (regs : List (Reg × Word)) : State :=
  withRegs { State.reset with image := [0, 0, 0, 0, 0, inst], ps := 0x00400000, w := 0x100005 } regs

/-- The Memory of section 2.4, `MEM_BASE = 0x1000`, `MEM_SIZE = 0x40`, in either byte order, fresh. -/
def freshMem (order : ByteOrder) : Memory := Memory.fresh ⟨0x1000, 0x40, order⟩

/-- The same with the words of section 2.4 written. -/
def loadedMem (order : ByteOrder) : Memory :=
  ((freshMem order).setWord 0x1000 0x11223344).setWord 0x1004 0x55667788 |>.setWord 0x103C 0xCAFEF00D

/-- A load or store vector: `r1 = 0x1000`. -/
def memVec (m : Memory) (inst : Word) (regs : List (Reg × Word)) : State :=
  { vec inst ((1, 0x1000) :: regs) with mem := m }

/-- One register and `W` after a step. -/
def after (s : State) (r : Reg) : Option (Word × WordAddr) := (nextState (step s)).map fun t => (t.x r, t.w)

/-- One register after a step. -/
def reg (s : State) (r : Reg) : Option Word := (nextState (step s)).map fun t => t.x r

/-- `W` after a step. -/
def pc (s : State) : Option WordAddr := (nextState (step s)).map fun t => t.w

/-- The Memory's bytes that are not 0 after a step. -/
def cells (s : State) : Option (List Host.Cell) := (nextState (step s)).map fun t => t.mem.cells

/-! ## Well-formedness: an ill-formed term for each check -/

theorem test_wf_register : (AsmInstr.add 32 1 2).wellFormed = false ∧ (AsmInstr.add 3 1 2).wellFormed = true := by decide
theorem test_wf_shamt : (AsmInstr.sll 3 2 32).wellFormed = false ∧ (AsmInstr.sll 3 2 31).wellFormed = true := by decide
theorem test_wf_signed_immediate : (AsmInstr.addi 2 1 32768).wellFormed = false ∧ (AsmInstr.lw 2 (-32769) 1).wellFormed = false ∧
    (AsmInstr.beq 1 2 (-32768)).wellFormed = true := by decide
theorem test_wf_unsigned_immediate : (AsmInstr.ori 2 1 65536).wellFormed = false ∧ (AsmInstr.andi 2 1 65535).wellFormed = true := by
  decide
theorem test_wf_target : (AsmInstr.j 67108864).wellFormed = false ∧ (AsmInstr.j 67108863).wellFormed = true := by decide
theorem test_wf_assemble : (AsmInstr.srl 3 2 32).assemble = none ∧ (AsmInstr.beq 1 2 (-3)).assemble.map encode = some 0x1022FFFD := by
  decide
theorem test_wf_instr : (Instr.sll 31 31 31).wellFormed = true ∧ (Instr.beq 0 31 0x8000).wellFormed = true := by decide

/-! ## Decoding: words written out from the encodings of 95_test_vectors.md -/

theorem test_decode_and : decode 0x00221824 = .listed (.and 3 1 2) := by decide
theorem test_decode_and_shamt_ignored : decode 0x002218E4 = .listed (.and 3 1 2) ∧ decode 0x00221864 = .listed (.and 3 1 2) := by decide
theorem test_decode_or : decode 0x00220025 = .listed (.or 0 1 2) := by decide
theorem test_decode_xor : decode 0x00211827 = .listed (.xor 3 1 1) := by decide
theorem test_decode_add : decode 0x00411020 = .listed (.add 2 2 1) := by decide
theorem test_decode_sub : decode 0x00022022 = .listed (.sub 4 0 2) := by decide
theorem test_decode_sll : decode 0x00021FC0 = .listed (.sll 3 2 31) ∧ decode 0x00000000 = .listed (.sll 0 0 0) := by decide
theorem test_decode_srl : decode 0x00221802 = .listed (.srl 3 2 0) ∧ decode 0x000137C2 = .listed (.srl 6 1 31) := by decide
theorem test_decode_slt : decode 0x0022282A = .listed (.slt 5 1 2) := by decide
theorem test_decode_beq : decode 0x1022FFFD = .listed (.beq 1 2 0xFFFD) := by decide
theorem test_decode_lw : decode 0x8CA3FFDC = .listed (.lw 3 5 0xFFDC) := by decide
theorem test_decode_sw : decode 0xACA10020 = .listed (.sw 1 5 0x20) := by decide
theorem test_decode_andi : decode 0x302B8000 = .listed (.andi 11 1 0x8000) := by decide
theorem test_decode_ori : decode 0x340C8000 = .listed (.ori 12 0 0x8000) := by decide
theorem test_decode_addi : decode 0x20020005 = .listed (.addi 2 0 5) := by decide
theorem test_decode_j : decode 0x0BFFFFFF = .listed (.j 0x3FFFFFF) := by decide
theorem test_decode_unlisted : decode 0x00221826 = .nopUnlisted ∧ decode 0x00221821 = .nopUnlisted ∧ decode 0x14220003 = .nopUnlisted ∧
    decode 0x3C011234 = .nopUnlisted ∧ decode 0x0000000C = .nopUnlisted ∧ decode 0xFFFFFFFF = .nopUnlisted := by decide

/-! ## The host's table words: every row decodes and runs first after reset -/

/-- The words of the rows of spec/opcode_table.json, operands zero. -/
def tableWords : List Nat :=
  [0x24, 0x25, 0x27, 0x20, 0x22, 0x00, 0x02, 0x2A] ++
    [0x10000000, 0x8C000000, 0xAC000000, 0x30000000, 0x34000000, 0x20000000, 0x08000000]

theorem test_table_words_decode : (tableWords.map (decodeTableWord 32)).all Option.isSome = true := by decide
theorem test_table_words_run : tableWords.all (fun w => State.touchesMemory (State.reset.withFetchWord 32 w) ==
    (w == 0x8C000000 || w == 0xAC000000)) = true ∧
    tableWords.all (fun w => ((nextState (step (State.reset.withFetchWord 32 w))).map fun t => t.icount) == some 1) = true := by decide
theorem test_table_word_first : reg (State.reset.withFetchWord 32 0x20020005) 2 = some 5 := by decide
theorem test_table_word_in_image : reg ((vec 0 []).withFetchWord 32 0x20020005) 2 = some 5 := by decide

/-! ## R-type ALU (section 2.2) -/

theorem test_and : after (vec 0x00221824 [(1, 0xF0F0F0F0), (2, 0xFF00FF00)]) 3 = some (0xF000F000, 0x11) := by decide
theorem test_or : after (vec 0x00221825 [(1, 0xF0F0F0F0), (2, 0xFF00FF00)]) 3 = some (0xFFF0FFF0, 0x11) := by decide
theorem test_or_r0 : after (vec 0x00220025 [(1, 0x1234), (2, 0x5678)]) 0 = some (0, 0x11) := by decide
theorem test_xor : reg (vec 0x00221827 [(1, 0xF0F0F0F0), (2, 0xFF00FF00)]) 3 = some 0x0FF00FF0 := by decide
theorem test_xor_not_0x26 : after (vec 0x00221826 [(1, 0xF0F0F0F0), (2, 0xFF00FF00)]) 3 = some (0, 0x11) := by decide
theorem test_add_wraps : reg (vec 0x00221820 [(1, 0xFFFFFFFF), (2, 1)]) 3 = some 0 := by decide
theorem test_add_same_register : reg (vec 0x00210820 [(1, 0x80000000)]) 1 = some 0 := by decide
theorem test_sub_wraps : reg (vec 0x00221822 [(1, 0), (2, 1)]) 3 = some 0xFFFFFFFF := by decide
theorem test_sub_signed_overflow : reg (vec 0x00221822 [(1, 0x80000000), (2, 1)]) 3 = some 0x7FFFFFFF := by decide
theorem test_sll : reg (vec 0x00021900 [(2, 0x80000001)]) 3 = some 0x10 := by decide
theorem test_sll_31 : reg (vec 0x00021FC0 [(2, 3)]) 3 = some 0x80000000 := by decide
theorem test_srl_zero_fill : reg (vec 0x00021902 [(2, 0x80000001)]) 3 = some 0x08000000 := by decide
theorem test_srl_rs_ignored : reg (vec 0x00221802 [(1, 5), (2, 0x80000001)]) 3 = some 0x80000001 := by decide
theorem test_slt_unsigned : reg (vec 0x0022182A [(1, 0xFFFFFFFF), (2, 1)]) 3 = some 0 := by decide
theorem test_slt_signed :
    reg { vec 0x0022182A [(1, 0xFFFFFFFF), (2, 1)] with cfg := ⟨.little, .signed, .absolute⟩ } 3 = some 1 := by decide

/-! ## Branch and jump (sections 2.3, 2.6) -/

theorem test_beq_taken_back : pc (branchVec 0x1022FFFD [(1, 7), (2, 7)]) = some 0x100002 := by decide
theorem test_beq_not_taken : pc (branchVec 0x1022FFFD [(1, 7), (2, 8)]) = some 0x100006 := by decide
theorem test_j_absolute : pc (branchVec 0x08000002 []) = some 0x000002 := by decide
theorem test_j_image_relative :
    pc { branchVec 0x08100002 [] with cfg := ⟨.little, .unsigned, .imageRelative⟩ } = some 0x200002 := by decide

/-! ## Loads and stores (section 2.4) -/

theorem test_lw_misaligned : reg (memVec (loadedMem .little) 0x8C220001 []) 2 = some 0x88112233 ∧
    reg (memVec (loadedMem .big) 0x8C220001 []) 2 = some 0x22334455 := by decide
theorem test_lw_last_word_and_straddle : reg (memVec (loadedMem .little) 0x8C22003C [(2, 9)]) 2 = some 0xCAFEF00D ∧
    reg (memVec (loadedMem .little) 0x8C22003D [(2, 9)]) 2 = some 0 ∧
    reg (memVec (loadedMem .little) 0x8C210000 []) 1 = some 0x11223344 := by decide
theorem test_sw_little_and_big :
    cells (memVec (freshMem .little) 0xAC220002 [(2, 0xA1B2C3D4)]) =
      some [(0x1002, 0xD4), (0x1003, 0xC3), (0x1004, 0xB2), (0x1005, 0xA1)] ∧
    cells (memVec (freshMem .big) 0xAC220000 [(2, 0xA1B2C3D4)]) =
      some [(0x1000, 0xA1), (0x1001, 0xB2), (0x1002, 0xC3), (0x1003, 0xD4)] := by decide
theorem test_sw_edge : cells (memVec (freshMem .little) 0xAC22003D [(2, 0xA1B2C3D4)]) = some [] ∧
    cells (memVec (freshMem .little) 0xAC210008 []) = some [(0x1009, 0x10)] := by decide

/-! ## Immediate ALU (section 2.5) -/

theorem test_andi_zero_extends : reg (vec 0x30228000 [(1, 0xFFFFFFFF)]) 2 = some 0x8000 := by decide
theorem test_ori_zero_extends : reg (vec 0x34228000 [(1, 0)]) 2 = some 0x8000 := by decide
theorem test_ori_keeps_high : reg (vec 0x342200FF [(1, 0xFFFF0000)]) 2 = some 0xFFFF00FF := by decide
theorem test_addi_sign_extends : reg (vec 0x20228000 [(1, 0)]) 2 = some 0xFFFF8000 := by decide
theorem test_addi_same_register : reg (vec 0x2021FFFE [(1, 1)]) 1 = some 0xFFFFFFFF := by decide

/-! ## Cycle and host calls (section 2.7) -/

theorem test_past_end : step { State.reset with image := [0], ps := 0x100, w := 0x41 } =
    .next { State.reset with image := [0], ps := 0x100, w := 0x42, icount := 1 } := by rfl
theorem test_step_call : (State.reset.call (.step 3)).2.w = 3 ∧ (State.reset.call (.step 3)).2.icount = 3 := by decide
theorem test_step_busy : (({ State.reset with clk := .running, freq := 1 } : State).call (.step 1)).1 = .error .busy := by decide
theorem test_bad_register : (State.reset.call (.getRegister 32)).1 = .error .badRegisterIndex := by decide
theorem test_set_pc : ((State.reset.call (.setPc 0x40E)).2.call .getPc).1 = .word 0x40C := by decide
theorem test_image_decode : imageDecode .little [0x05, 0x00, 0x02, 0x20] = [0x20020005] ∧
    imageDecode .big [0x05, 0x00, 0x02, 0x20] = [0x05000220] := by decide
theorem test_load_order : (State.reset.call (.load (.bytes [1, 2, 3, 4, 5, 6]) 2)).1 = .error .misalignedStart ∧
    (State.reset.call (.load (.bytes [1, 2, 3, 4, 5, 6]) 4)).1 = .error .truncatedImage ∧
    (State.reset.call (.load (.path none) 0)).1 = .error .unreadable := by decide
theorem test_sext16 : sext16 0x8000 = 0xFFFF8000 ∧ sext16 0x0001 = 0x00000001 := by decide

/-- Two cores over one Memory: core 0 stores, core 1 loads what core 0 stored (R93). -/
def twoCores : System :=
  { cores := [memVec (freshMem .little) 0xAC220000 [(2, 0xA1B2C3D4)], memVec (freshMem .little) 0x8C230000 []]
    memory := freshMem .little }

theorem test_shared_store_is_seen : ((System.events [.manual 0, .manual 1] twoCores).cores[1]?.map fun s => s.x 3) = some 0xA1B2C3D4 ∧
    ((System.events [.manual 1, .manual 0] twoCores).cores[1]?.map fun s => s.x 3) = some 0 := by decide
theorem test_lock_makes_a_core_wait :
    ((System.events [.beginAccess (.host 0), .manual 0] twoCores).cores[0]?.map fun s => s.w) = some 0x10 := by decide

/-! ## Witnesses: every statement with hypotheses has states and operands that meet them -/

theorem witness_DecodeUndoesEncode : (Instr.add 3 1 2).wellFormed = true := by decide
theorem witness_EncodeUndoesDecode : decode 0x002218E4 = .listed (.and 3 1 2) := by decide
theorem witness_OpcodeMapIsExact : decode 0x00221826 = .nopUnlisted ∧ opcodeOf 0xFFFFFFFF ∉ listedOpcodes ∧
    opcodeOf 0x0000000C = 0x00#6 ∧ functOf 0x0000000C ∉ listedFuncts := by decide
/-- A word that matches each row, for the `RowMeans` of each instruction's statement. -/
theorem witness_RowMeans :
    (0x00221824#32 &&& 0xFC00003F = 0x24 ∧ 0x00221825#32 &&& 0xFC00003F = 0x25 ∧ 0x00221827#32 &&& 0xFC00003F = 0x27 ∧
      0x00221820#32 &&& 0xFC00003F = 0x20 ∧ 0x00221822#32 &&& 0xFC00003F = 0x22 ∧ 0x00021900#32 &&& 0xFC00003F = 0x00 ∧
      0x00021902#32 &&& 0xFC00003F = 0x02 ∧ 0x0022182A#32 &&& 0xFC00003F = 0x2A) ∧
    (0x1022FFFD#32 &&& 0xFC000000 = 0x10000000 ∧ 0x8C220000#32 &&& 0xFC000000 = 0x8C000000 ∧
      0xAC220000#32 &&& 0xFC000000 = 0xAC000000 ∧ 0x3022FFFF#32 &&& 0xFC000000 = 0x30000000 ∧
      0x3422FFFF#32 &&& 0xFC000000 = 0x34000000 ∧ 0x20020005#32 &&& 0xFC000000 = 0x20000000 ∧
      0x08100002#32 &&& 0xFC000000 = 0x08000000) := by decide
theorem witness_XorResult_unlisted : 0x00221826#32 &&& 0xFC00003F = 0x26 := by decide
theorem witness_IgnoredFieldsChangeNothing : decode 0x00221824 = .listed (.and 3 1 2) ∧
    (0x002218E4#32 &&& significantMask (.and 3 1 2)) = (0x00221824#32 &&& significantMask (.and 3 1 2)) := by decide
theorem witness_RegisterZeroIsHardwired : (31 : Reg) ≠ 0 ∧ destOf (.add 0 1 2) = some 0 ∧ destOf (.lw 0 1 0) = some 0 := by decide
theorem witness_InstructionReadsOnlyItsSources : ∀ r ∈ sourcesOf (.add 3 1 2),
    ({ vec 0 [(1, 7), (2, 8)] with gpr := ((vec 0 [(1, 7), (2, 8)]).setX 5 9).gpr } : State).x r = (vec 0 [(1, 7), (2, 8)]).x r := by
  decide
theorem witness_PcByteAddressFromFakePc : (branchVec 0 []).ps.toNat % 4 = 0 := by decide
theorem witness_HostPcAccess : ((branchVec 0 []).call .getPc).1 = .word 0x00400014 := by decide
theorem witness_ConstructionValues : (1 : Reg) ≠ 0 := by decide
theorem witness_ResetIsLegal : (⟨0xFFFFFFFF, 2 ^ 32, .big⟩ : MemConfig).size ≤ 2 ^ 32 := by decide
/-- The last whole word of the buffer, the straddling one, and the byte edges, in both orders (also for WordWriteByByteOrder,
ByteAndSignedAccessors, ReadBackWhatWasWritten and HostMemoryAccess). -/
theorem witness_WordReadByByteOrder :
    (freshMem .little).valid 0x103C 4 = true ∧ (freshMem .little).cfg.order = .little ∧ (freshMem .big).valid 0x1000 4 = true ∧
      (freshMem .big).cfg.order = .big ∧ (freshMem .little).valid 0x103D 4 = false ∧ (freshMem .little).valid 0x0FFF 4 = false ∧
      (freshMem .little).valid 0x103F 1 = true ∧ (freshMem .little).valid 0x1040 1 = false := by decide
theorem witness_WordWriteByByteOrder : (0x0FFF < (0x1000 : Word).toNat ∨ (0x1000 : Word).toNat + 4 ≤ 0x0FFF) ∧
    (0x1004 < (0x1000 : Word).toNat ∨ (0x1000 : Word).toNat + 4 ≤ 0x1004) := by decide
theorem witness_ReadBackWhatWasWritten : (0x1000 : Word).toNat + 4 ≤ (0x1004 : Word).toNat := by decide
theorem witness_ByteAndSignedAccessors : (2 : Reg) ≠ 0 := by decide
theorem witness_OnlyLoadChangesTheImage : nextState (step State.reset) = some { State.reset with w := 1, icount := 1 } ∧
    ∀ src start, HostCall.getPc ≠ .load src start := ⟨rfl, fun _ _ h => by cases h⟩
theorem witness_JumpResult : State.reset.ps = 0 := by decide
/-- For LoadSeesOwnStore and the out-of-range clauses of AnomaliesAreSilent: the last whole word, and one byte further. -/
theorem witness_LoadSeesOwnStore :
    (memVec (freshMem .little) 0 []).mem.valid ((memVec (freshMem .little) 0 []).ea 1 60) 4 = true ∧
      (memVec (freshMem .little) 0 []).mem.valid ((memVec (freshMem .little) 0 []).ea 1 61) 4 = false ∧ (2 : Reg) ≠ 0 := by decide
theorem witness_StepRunsDecodedInstruction :
    (branchVec 0x20020005 []).fakePc.toNat < (branchVec 0x20020005 []).image.length ∧ (branchVec 0x20020005 []).fetch = some 0x20020005 ∧
      decode 0x20020005 = .listed (.addi 2 0 5) ∧ (nextState (exec (.addi 2 0 5) (branchVec 0x20020005 []))).isSome = true := by decide
theorem witness_UnlistedWordIsNoOp : (vec 0x0000000C []).fetch = some 0x0000000C ∧ decode 0x0000000C = .nopUnlisted := by decide
/-- The first word past a one-word image, the word before it, no image, and an image that ends at the top of the address space. -/
theorem witness_PastEndAdvance :
    ({ vec 0 [] with w := 0x11 } : State).psize ≤ ({ vec 0 [] with w := 0x11 } : State).fakePc.toNat ∧
      ({ vec 0 [] with w := 0x0F } : State).psize ≤ ({ vec 0 [] with w := 0x0F } : State).fakePc.toNat ∧ State.reset.psize = 0 ∧
      ({ State.reset with image := [0], ps := 0xFFFFFFFC } : State).psw.toNat + 1 ≤ 2 ^ 30 := by decide
theorem witness_DefaultAdvance : fallsThrough (.add 3 1 2) = true ∧ (branchVec 0 [(1, 7), (2, 8)]).x 1 ≠ (branchVec 0 [(1, 7), (2, 8)]).x 2 := by
  decide
theorem witness_FinishedOnlyCounts : (vec 0x10000000 []).finished = true := by decide
/-- For every statement about legal states (StepKeepsLegalState, HostKeepsLegalState, SharersSeeOneMemory). -/
theorem witness_StepKeepsLegalState : (memVec (loadedMem .little) 0xAC220000 [(2, 5)]).Inv ∧
    (nextState (step (memVec (loadedMem .little) 0xAC220000 [(2, 5)]))).isSome = true := by decide
theorem witness_CyclesKeepControlAndCount : (freshMem .little).cfg.base.toNat + (freshMem .little).cfg.size ≤ 0x1040 ∧
    0x0FFF < (freshMem .little).cfg.base.toNat := by decide
/-- The clauses of AnomaliesAreSilent: a misaligned address whose word just fits the buffer, operands at both ends of the signed range for
each of the three sums, an unlisted word, a PC outside the image, a write to r0. -/
theorem witness_AnomaliesAreSilent_access :
    ((memVec (freshMem .little) 0 []).ea 1 1).toNat % 4 ≠ 0 ∧
      (memVec (freshMem .little) 0 []).mem.valid ((memVec (freshMem .little) 0 []).ea 1 1) 4 = true ∧
      ((memVec (freshMem .little) 0 []).ea 1 59).toNat % 4 ≠ 0 ∧
      (memVec (freshMem .little) 0 []).mem.valid ((memVec (freshMem .little) 0 []).ea 1 59) 4 = true := by decide
theorem witness_AnomaliesAreSilent_range :
    LeavesSignedRange ((0x7FFFFFFF : Word).toInt + (1 : Word).toInt) ∧ LeavesSignedRange ((0x80000000 : Word).toInt + (0xFFFFFFFF : Word).toInt) ∧
      LeavesSignedRange ((0x80000000 : Word).toInt - (1 : Word).toInt) ∧ LeavesSignedRange ((0 : Word).toInt - (0x80000000 : Word).toInt) ∧
      LeavesSignedRange ((0x7FFFFFFF : Word).toInt + (1 : Imm16).toInt) ∧
      LeavesSignedRange ((0x80007FFF : Word).toInt + (0x8000 : Imm16).toInt) ∧ (vec 0 [(1, 0x7FFFFFFF), (2, 1)]).x 1 = 0x7FFFFFFF := by
  unfold LeavesSignedRange
  decide
theorem witness_AnomaliesAreSilent : (vec 0xFFFFFFFF []).fetch = some 0xFFFFFFFF ∧ decode 0xFFFFFFFF = .nopUnlisted ∧
    State.reset.fetch = none ∧ destOf (.ori 0 1 2) = some 0 := by decide
theorem witness_ErrorsChangeNothing : State.reset.call (.run 0) = (.error .invalidFrequency, State.reset) := rfl
theorem witness_HostRegisterAccess : 32 ≤ 32 ∧ State.reset.call (.setRegister 32 7) = (.error .badRegisterIndex, State.reset) := ⟨by decide, rfl⟩
theorem witness_HostStepCall : State.reset.clk = .stopped ∧ ({ State.reset with clk := .running, freq := 1 } : State).clk = .running := by
  decide
/-- Each case of `load`; the fourth is an image of 2^30 + 1 words. -/
theorem witness_LoadValidatesThenReplaces :
    (2 : Word).toNat % 4 ≠ 0 ∧ ((4 : Word).toNat % 4 = 0 ∧ (Source.path none).read = none) ∧
      ([1, 2, 3, 4, 5, 6] : List Byte).length % 4 ≠ 0 ∧
      ((List.replicate (2 ^ 32 + 4) (0 : Byte)).length % 4 = 0 ∧ 2 ^ 30 < (List.replicate (2 ^ 32 + 4) (0 : Byte)).length / 4) ∧
      ((Source.bytes [5, 0, 2, 0x20]).read = some [5, 0, 2, 0x20] ∧ ([5, 0, 2, 0x20] : List Byte).length / 4 ≤ 2 ^ 30) := by
  simp only [List.length_replicate]
  decide
theorem witness_ProgramFileWords : ([5, 0, 2, 0x20, 0, 0, 0, 0x10] : List Byte).length % 4 = 0 ∧
    1 < ([5, 0, 2, 0x20, 0, 0, 0, 0x10] : List Byte).length / 4 := by decide
theorem witness_ClockStateMachine : (1000 : BitVec 32) ≠ 0 ∧ (State.reset.run 1000).2.clk = .running ∧ State.reset.clk = .stopped := by decide
theorem witness_DriverLoop : ((State.reset.run 1000).2.requestStop).stopReq = true ∧
    ((State.reset.run 1000).2.requestStop).clk = .running ∧ (State.reset.run 1000).2.stopReq = false := by decide
theorem witness_SharersSeeOneMemory : twoCores.Coherent ∧ (∀ s ∈ twoCores.cores, s.Inv) ∧ twoCores.memory.wf = true ∧
    twoCores.memory.inBuffer = true := by decide
theorem witness_LockedMemoryIsUntouched : (twoCores.event (.beginAccess (.host 0))).memory.lock = some (.host 0) ∧
    ∀ c, Event.endAccess (.host 0) c ∉ [Event.manual 0, .tick 1] := ⟨by decide, fun c h => by simp at h⟩
/-- The clauses of CoresShareNothingElse: a core beside the one that acts; a free lock; a held lock with an act that needs an access, and
with acts that need none. -/
theorem witness_CoresShareNothingElse : (1 : Nat) ≠ 0 ∧ twoCores.Coherent ∧ twoCores.cores[0]?.isSome = true ∧
    twoCores.memory.lock = none ∧ (twoCores.event (.beginAccess (.host 0))).memory.lock = some (.host 0) := by decide
theorem witness_CoresShareNothingElse_waits :
    (twoCores.cores[0]?.map fun s => (s.withMem twoCores.memory).touchesMemory) = some true ∧
      (twoCores.cores[0]?.map fun s => (s.withMem twoCores.memory).tickNeedsMemory) = some false ∧
      (((twoCores.event (.call 0 (.run 1))).cores[0]?.map fun s => s.tickNeedsMemory) = some true) ∧
      (HostCall.step 1).needsMemory = true ∧ HostCall.getPc.needsMemory = false := by decide
theorem witness_SharersSeeAStore : twoCores.Coherent ∧ twoCores.memory.lock = none ∧
    (twoCores.cores.map fun s => (s.clk, s.fetch)) = [(.stopped, some 0xAC220000), (.stopped, some 0x8C230000)] ∧
    decode 0xAC220000 = .listed (.sw 2 1 0) ∧ decode 0x8C230000 = .listed (.lw 3 1 0) ∧
    (twoCores.cores.map fun s => s.ea 1 0) = [0x1000, 0x1000] ∧ twoCores.memory.valid 0x1000 4 = true := by decide
theorem witness_LabelsResolve : beqLabel 0x100002 0x100005 = some 0xFFFD ∧ beqLabel 0x3FFFFFFF 5 = some 0xFFFA ∧
    jReaches .absolute 0x100000 0x100005 0x100002 = true ∧ jReaches .imageRelative 0x100000 0x100005 0x100002 = true := by decide

end Sys2Proof.Tests
end

section
/-!
PROOFS. The extension primitives of 00_scope.md rule R8 (O7), and the legal states of Safety.lean as an invariant of every cycle (O45), of
every host call, driver iteration and stop request (O55). The lemmas say once what the clock's and the host's functions do in each case,
then that each update of the state keeps it legal.
-/

namespace Sys2Proof.Machine

/-! ## The extension primitives (R8) -/

/-- The bits that the sign extension fills are the bits of the mask `0xFFFF0000`. -/
theorem sext16_eq_ite (v : Imm16) :
    sext16 v = if v.getLsbD 15 then v.zeroExtend 32 ||| 0xFFFF0000#32 else v.zeroExtend 32 := by
  have hmask : ∀ i < 32, (0xFFFF0000#32).getLsbD i = decide (16 ≤ i) := by decide
  have hmsb : v.msb = v.getLsbD 15 := BitVec.msb_eq_getLsbD_last v
  split
  case isTrue h =>
    apply BitVec.eq_of_getLsbD_eq
    intro i hi
    rw [sext16, BitVec.getLsbD_signExtend, BitVec.getLsbD_or, hmask i hi, BitVec.getLsbD_setWidth, hmsb, h]
    by_cases hlow : i < 16
    · simp [hi, hlow]
    · simp [hi, hlow, Nat.not_lt.mp hlow]
  case isFalse h =>
    exact BitVec.signExtend_eq_setWidth_of_msb_false (by simpa [hmsb] using h)

/-- The 30-bit extension is the low 30 bits of the 32-bit one. -/
theorem sext16to30_eq_setWidth (v : Imm16) : sext16to30 v = (sext16 v).setWidth 30 := by
  apply BitVec.eq_of_getLsbD_eq
  intro i hi
  have hi32 : i < 32 := by omega
  simp only [sext16to30, sext16, BitVec.getLsbD_setWidth, BitVec.getLsbD_signExtend, hi, hi32, decide_true, Bool.true_and]

/-! ## The clock and the host's calls, case by case (R80, R105 to R107) -/

theorem State.requestStop_of_stopped {s : State} (h : s.clk = .stopped) : s.requestStop = s := by
  simp [State.requestStop, h]

theorem State.requestStop_of_running {s : State} (h : s.clk = .running) : s.requestStop = { s with stopReq := true } := by
  simp [State.requestStop, h]

theorem State.driverIteration_of_stopped {s : State} (h : s.clk = .stopped) : s.driverIteration = s := by
  simp [State.driverIteration, h]

theorem State.driverIteration_of_running {s : State} (h : s.clk = .running) :
    s.driverIteration = if s.stopReq then s.finishStop else s.cycle := by
  simp [State.driverIteration, h]

theorem State.stop_of_stopped {s : State} (h : s.clk = .stopped) : s.stop = (.count s.icount, s) := by
  simp [State.stop, h]

theorem State.stop_of_running {s : State} (h : s.clk = .running) :
    s.stop = (.count s.icount, s.requestStop.finishStop) := by
  simp [State.stop, h]

theorem State.run_zero (s : State) : s.run 0#32 = (.error .invalidFrequency, s) := rfl

theorem State.run_of_ne_zero (s : State) {f : BitVec 32} (h : f ≠ 0#32) :
    s.run f = (.done, { s with freq := f, clk := .running }) := by
  simp [State.run, h]

theorem State.stepCall_of_stopped {s : State} (h : s.clk = .stopped) (count : BitVec 32) :
    s.stepCall count = (.done, State.cycles count.toNat s) := by
  simp [State.stepCall, h]

theorem State.stepCall_of_running {s : State} (h : s.clk = .running) (count : BitVec 32) :
    s.stepCall count = (.error .busy, s) := by
  simp [State.stepCall, h]

theorem State.getRegister_snd (s : State) (i : Nat) : (s.getRegister i).2 = s := by
  unfold State.getRegister
  split <;> rfl

theorem State.setRegister_of_regOk (s : State) {i : Nat} (h : regOk i = true) (v : Word) :
    s.setRegister i v = (.done, s.setX (BitVec.ofNat 5 i) v) := by
  simp [State.setRegister, h]

theorem State.setRegister_of_not_regOk (s : State) {i : Nat} (h : ¬ regOk i = true) (v : Word) :
    s.setRegister i v = (.error .badRegisterIndex, s) := by
  simp [State.setRegister, h]

/-! ## Every cycle is a step (R87) -/

/-- `step` always answers a next state. -/
theorem exists_step_eq_next (s : State) : ∃ t, step s = .next t := by
  cases hf : s.fetch with
  | none => exact ⟨_, step_of_past_end hf⟩
  | some inst =>
    cases hd : decode inst with
    | nopUnlisted => exact ⟨_, step_of_unlisted hf hd⟩
    | listed i =>
      obtain ⟨t, ht, -⟩ := exec_cases i s
      exact ⟨_, step_of_listed hf hd ht⟩

/-- The state that `step` answers is the one `cycle` leaves. -/
theorem step_eq_next_cycle (s : State) : step s = .next s.cycle := by
  obtain ⟨t, ht⟩ := exists_step_eq_next s
  rw [State.cycle_of_step ht, ht]

/-! ## Each update of the state keeps it legal

An update of a field that the invariant does not read keeps it by definition. -/

variable {s t : State}

theorem State.Inv.setW (h : s.Inv) (nextW : WordAddr) : (s.setW nextW).Inv := h

theorem State.Inv.advance (h : s.Inv) : s.advance.Inv := h

theorem State.Inv.tick (h : s.Inv) : s.tick.Inv := h

/-- r0's home is never written (R13). -/
theorem State.Inv.setX (h : s.Inv) (i : Reg) (v : Word) : (s.setX i v).Inv := by
  obtain ⟨hr0, hrest⟩ := h
  exact ⟨(s.setX_gpr_zero i v).trans hr0, hrest⟩

/-- A word write keeps the Memory canonical and inside its buffer, and moves none of its parameters (R24, R27). -/
theorem State.Inv.memWrite (h : s.Inv) (a v : Word) : (s.memWrite a v).Inv := by
  obtain ⟨hr0, hps, himage, hwf, hbuf, hrest⟩ := h
  exact ⟨hr0, hps, himage, Memory.setWord_wf a v hwf, Memory.setWord_inBuffer a v hbuf, hrest⟩

/-- A stopped clock needs no frequency, and no request is left pending (R107). -/
theorem State.Inv.finishStop (h : s.Inv) : s.finishStop.Inv := by
  obtain ⟨hr0, hps, himage, hwf, hbuf, hmem, -, -⟩ := h
  exact ⟨hr0, hps, himage, hwf, hbuf, hmem, nofun, nofun⟩

/-- A request is made of a running clock only (R22, R107). -/
theorem State.Inv.requestStop (h : s.Inv) : s.requestStop.Inv := by
  cases hclk : s.clk with
  | stopped => rwa [State.requestStop_of_stopped hclk]
  | running =>
    rw [State.requestStop_of_running hclk]
    obtain ⟨hr0, hps, himage, hwf, hbuf, hmem, hfreq, -⟩ := h
    exact ⟨hr0, hps, himage, hwf, hbuf, hmem, hfreq, fun _ => hclk⟩

/-- What the loader's checks let through is an aligned start and an image that fits (R102). -/
theorem State.Inv.replaceImage (h : s.Inv) {src : Source} {start : Word} {bytes : List Byte}
    (hc : loadCheck src start = .ok bytes) : (s.replaceImage bytes start).Inv := by
  obtain ⟨hr0, -, -, hwf, hbuf, hmem, -, -⟩ := h
  obtain ⟨hstart, -, -, hsize⟩ := loadCheck_eq_ok hc
  have himage : (s.replaceImage bytes start).psize ≤ 2 ^ 30 := by
    rw [State.psize, State.replaceImage_image, imageDecode_length]
    exact hsize
  exact ⟨hr0, hstart, himage, hwf, hbuf, hmem, nofun, nofun⟩

/-! ## Cycles keep the state legal -/

theorem State.Inv.of_execCase (h : s.Inv) : ExecCase s t → t.Inv
  | .reg rd v => (h.setX rd v).advance
  | .pc nextW => h.setW nextW
  | .mem a v => (h.memWrite a v).advance

theorem State.Inv.of_stepCase (h : s.Inv) : StepCase s t → t.Inv
  | .advance => h.advance.tick
  | .exec _ hexec => (h.of_execCase hexec).tick

theorem State.Inv.of_step (h : s.Inv) (hstep : step s = .next t) : t.Inv := h.of_stepCase (step_cases hstep)

theorem State.Inv.cycle (h : s.Inv) : s.cycle.Inv := h.of_step (step_eq_next_cycle s)

theorem State.Inv.cycles (n : Nat) (h : s.Inv) : (State.cycles n s).Inv := by
  induction n generalizing s with
  | zero => exact h
  | succ n ih => exact ih h.cycle

theorem State.Inv.driverIteration (h : s.Inv) : s.driverIteration.Inv := by
  cases hclk : s.clk with
  | stopped => rwa [State.driverIteration_of_stopped hclk]
  | running =>
    rw [State.driverIteration_of_running hclk]
    split
    · exact h.finishStop
    · exact h.cycle

/-! ## Host calls keep the state legal -/

theorem State.Inv.load (h : s.Inv) (src : Source) (start : Word) : (s.load src start).2.Inv := by
  obtain ⟨e, -, heq⟩ | ⟨bytes, hcheck, heq⟩ := s.load_cases src start
  · rwa [heq]
  · rw [heq]
    exact h.replaceImage hcheck

theorem State.Inv.stepCall (h : s.Inv) (count : BitVec 32) : (s.stepCall count).2.Inv := by
  cases hclk : s.clk with
  | stopped =>
    rw [State.stepCall_of_stopped hclk]
    exact h.cycles count.toNat
  | running => rwa [State.stepCall_of_running hclk]

/-- `run` starts the clock with the frequency it has checked (R105). -/
theorem State.Inv.run (h : s.Inv) (f : BitVec 32) : (s.run f).2.Inv := by
  by_cases hf : f = 0#32
  · rwa [hf, State.run_zero]
  · rw [State.run_of_ne_zero s hf]
    obtain ⟨hr0, hps, himage, hwf, hbuf, hmem, -, -⟩ := h
    exact ⟨hr0, hps, himage, hwf, hbuf, hmem, fun _ => hf, fun _ => rfl⟩

theorem State.Inv.stop (h : s.Inv) : s.stop.2.Inv := by
  cases hclk : s.clk with
  | stopped => rwa [State.stop_of_stopped hclk]
  | running =>
    rw [State.stop_of_running hclk]
    exact h.requestStop.finishStop

theorem State.Inv.setRegister (h : s.Inv) (i : Nat) (v : Word) : (s.setRegister i v).2.Inv := by
  by_cases hi : regOk i = true
  · rw [State.setRegister_of_regOk s hi]
    exact h.setX (BitVec.ofNat 5 i) v
  · rwa [State.setRegister_of_not_regOk s hi]

/-- Every host call (R96), one arm per call. -/
theorem State.Inv.call (h : s.Inv) : ∀ c : HostCall, (s.call c).2.Inv
  | .load src start => h.load src start
  | .step count => h.stepCall count
  | .run frequency => h.run frequency
  | .stop => h.stop
  | .getRegister i => (s.getRegister_snd i).symm ▸ h
  | .setRegister i v => h.setRegister i v
  | .getPc => h
  | .setPc b => h.setW (wordAddrOf b)
  | .getMemory _ => h
  | .setMemory a v => h.memWrite a v

end Sys2Proof.Machine

namespace Sys2Proof.Claims

open Sys2Proof.Machine

/-- Settles O7: the extensions compared bit by bit. -/
theorem extensionPrimitives : Obligations.ExtensionPrimitives := by
  intro v
  refine ⟨sext16_eq_ite v, zext16_toNat v, ?_⟩
  rw [sext16to30_eq_setWidth, BitVec.toNat_setWidth]

/-- Settles O45, by what a cycle can do (`step_cases`): each of its updates keeps the invariant. -/
theorem stepKeepsLegalState : Obligations.StepKeepsLegalState :=
  fun _ _ h hstep => h.of_step hstep

/-- Settles O55: the invariant call by call, and through the driver's loop. -/
theorem hostKeepsLegalState : Obligations.HostKeepsLegalState :=
  fun _ h => ⟨h.call, h.driverIteration, h.requestStop⟩

end Sys2Proof.Claims
end

section
/-!
PROOFS. Register 0 (O8), the sources of an instruction (O9), and its destination and the control state (O10), by 10_state.md rules R13, R14
and R20. One lemma serves all three, `exists_hasEffect`: an instruction's effect is fixed by the values of its source registers, and the
only register the effect can write is the destination.
-/

namespace Sys2Proof.Machine

/-- The state with another register file. -/
def State.withGpr (s : State) (g : Vector Word 32) : State := { s with gpr := g }

/-- A register write other than to r0, read back: R13's plain case of `State.x_setX`. -/
theorem State.x_setX_of_ne_zero (s : State) {i : Reg} (hi : i ≠ 0#5) (j : Reg) (v : Word) :
    (s.setX i v).x j = if j = i then v else s.x j := by
  have hiff : j = i ∧ j ≠ 0#5 ↔ j = i := ⟨And.left, fun h => ⟨h, h ▸ hi⟩⟩
  simp only [State.x_setX, hiff]

/-! ## The effect of an instruction -/

/-- The three ends of an instruction (`ExecCase`) as data, so that one effect can be carried out in two states. -/
inductive Effect where
  | reg (rd : Reg) (v : Word)
  | pc (nextW : WordAddr)
  | mem (a v : Word)

/-- The state an effect leaves. -/
def Effect.apply : Effect → State → State
  | .reg rd v, s => (s.setX rd v).advance
  | .pc nextW, s => s.setW nextW
  | .mem a v, s => (s.memWrite a v).advance

/-- An effect is one of the three ends. -/
theorem Effect.execCase (e : Effect) (s : State) : ExecCase s (e.apply s) :=
  match e with
  | .reg rd v => .reg rd v
  | .pc nextW => .pc nextW
  | .mem a v => .mem a v

/-- The register an effect writes, if it writes one. -/
def Effect.dest : Effect → Option Reg
  | .reg rd _ => some rd
  | .pc _ | .mem _ _ => none

variable {e : Effect}

/-- A write to r0 is all that an effect with that destination does besides the advance, and it is discarded (R13). -/
theorem Effect.apply_of_dest_zero (h : e.dest = some 0#5) (s : State) : e.apply s = s.advance := by
  cases e with
  | reg rd v => cases h; exact congrArg State.advance (s.setX_zero v)
  | pc | mem => cases h

/-- An effect writes no register but its destination. -/
theorem Effect.x_apply_of_dest_ne {r : Reg} (h : e.dest ≠ some r) (s : State) : (e.apply s).x r = s.x r := by
  cases e with
  | reg rd v =>
    have hr : r ≠ rd := fun hr => h (congrArg some hr.symm)
    simp [Effect.apply, State.x_setX, hr]
  | pc | mem => rfl

/-- What an effect leaves in its destination does not depend on the state. -/
theorem Effect.x_apply_of_dest_eq {r : Reg} (h : e.dest = some r) (s t : State) : (e.apply s).x r = (e.apply t).x r := by
  cases e with
  | reg rd v =>
    cases h
    by_cases hr : r = 0#5
    · simp [hr]
    · simp [Effect.apply, State.x_setX, hr]
  | pc | mem => cases h

@[simp] theorem Effect.apply_withGpr_w (e : Effect) (s : State) (g : Vector Word 32) :
    (e.apply (s.withGpr g)).w = (e.apply s).w := by cases e <;> rfl

@[simp] theorem Effect.apply_withGpr_mem (e : Effect) (s : State) (g : Vector Word 32) :
    (e.apply (s.withGpr g)).mem = (e.apply s).mem := by cases e <;> rfl

end Sys2Proof.Machine

namespace Sys2Proof.Claims

open Sys2Proof.Machine

/-! ## Every instruction has one effect, whatever the registers it does not read hold (R14) -/

/-- `e` is what `i` does in `s`, and in every state that differs from `s` in registers outside the sources of `i` only. -/
structure HasEffect (i : Instr) (s : State) (e : Effect) : Prop where
  dest_eq : e.dest = destOf i
  exec_withGpr : ∀ g, (∀ r ∈ sourcesOf i, (s.withGpr g).x r = s.x r) → exec i (s.withGpr g) = .next (e.apply (s.withGpr g))

variable {i : Instr} {s : State} {e : Effect}

theorem HasEffect.exec_eq (h : HasEffect i s e) : exec i s = .next (e.apply s) := h.exec_withGpr s.gpr fun _ _ => rfl

/-- An instruction whose effect is a function of two source registers. -/
theorem HasEffect.of_two {r₁ r₂ : Reg} (f : Word → Word → Effect) (hsrc : sourcesOf i = [r₁, r₂])
    (hdest : ∀ a b, (f a b).dest = destOf i)
    (hexec : ∀ g, exec i (s.withGpr g) = .next ((f ((s.withGpr g).x r₁) ((s.withGpr g).x r₂)).apply (s.withGpr g))) :
    HasEffect i s (f (s.x r₁) (s.x r₂)) where
  dest_eq := hdest _ _
  exec_withGpr g h := by
    have h₁ : (s.withGpr g).x r₁ = s.x r₁ := h r₁ (by simp [hsrc])
    have h₂ : (s.withGpr g).x r₂ = s.x r₂ := h r₂ (by simp [hsrc])
    rw [hexec, h₁, h₂]

/-- An instruction whose effect is a function of one source register. -/
theorem HasEffect.of_one {r : Reg} (f : Word → Effect) (hsrc : sourcesOf i = [r]) (hdest : ∀ a, (f a).dest = destOf i)
    (hexec : ∀ g, exec i (s.withGpr g) = .next ((f ((s.withGpr g).x r)).apply (s.withGpr g))) :
    HasEffect i s (f (s.x r)) where
  dest_eq := hdest _
  exec_withGpr g h := by
    have hr : (s.withGpr g).x r = s.x r := h r (by simp [hsrc])
    rw [hexec, hr]

/-- Each instruction's effect, as a function of the values of its sources (R56 to R72). What else it reads, the parameters, `W`, `PS` and
the Memory, is no register. -/
theorem exists_hasEffect (i : Instr) (s : State) : ∃ e, HasEffect i s e :=
  match i with
  | .and rd _ _ => ⟨_, .of_two (fun a b => .reg rd (a &&& b)) rfl (fun _ _ => rfl) fun _ => rfl⟩
  | .or rd _ _ => ⟨_, .of_two (fun a b => .reg rd (a ||| b)) rfl (fun _ _ => rfl) fun _ => rfl⟩
  | .xor rd _ _ => ⟨_, .of_two (fun a b => .reg rd (a ^^^ b)) rfl (fun _ _ => rfl) fun _ => rfl⟩
  | .add rd _ _ => ⟨_, .of_two (fun a b => .reg rd (a + b)) rfl (fun _ _ => rfl) fun _ => rfl⟩
  | .sub rd _ _ => ⟨_, .of_two (fun a b => .reg rd (a - b)) rfl (fun _ _ => rfl) fun _ => rfl⟩
  | .sll rd _ shamt => ⟨_, .of_one (fun a => .reg rd (a <<< shamt.toNat)) rfl (fun _ => rfl) fun _ => rfl⟩
  | .srl rd _ shamt => ⟨_, .of_one (fun a => .reg rd (a >>> shamt.toNat)) rfl (fun _ => rfl) fun _ => rfl⟩
  | .slt rd _ _ =>
    ⟨_, .of_two (fun a b => .reg rd (boolWord (lessThan s.cfg.sltMode a b))) rfl (fun _ _ => rfl) fun _ => rfl⟩
  | .beq _ _ imm =>
    ⟨_, .of_two (fun a b => .pc (if a == b then s.branchTarget imm else s.w + 1#30)) rfl (fun _ _ => rfl) fun _ => rfl⟩
  | .lw rt _ imm => ⟨_, .of_one (fun a => .reg rt (s.memRead (a + sext16 imm))) rfl (fun _ => rfl) fun _ => rfl⟩
  | .sw _ _ imm => ⟨_, .of_two (fun a v => .mem (a + sext16 imm) v) rfl (fun _ _ => rfl) fun _ => rfl⟩
  | .andi rt _ imm => ⟨_, .of_one (fun a => .reg rt (a &&& zext16 imm)) rfl (fun _ => rfl) fun _ => rfl⟩
  | .ori rt _ imm => ⟨_, .of_one (fun a => .reg rt (a ||| zext16 imm)) rfl (fun _ => rfl) fun _ => rfl⟩
  | .addi rt _ imm => ⟨_, .of_one (fun a => .reg rt (a + sext16 imm)) rfl (fun _ => rfl) fun _ => rfl⟩
  | .j target => ⟨.pc (s.jumpTarget target), rfl, fun _ _ => rfl⟩

/-- No end of an instruction touches the control and status state (R20). -/
theorem keepsControl_of_execCase {s t : State} (h : ExecCase s t) : KeepsControl s t := by
  cases h with
  | reg rd v => simp [KeepsControl]
  | pc nextW => simp [KeepsControl]
  | mem a v => simp [KeepsControl]

/-! ## The obligations -/

/-- Settles O8: the register laws of R13, and for an instruction its effect, which has destination r0. -/
theorem registerZeroIsHardwired : Obligations.RegisterZeroIsHardwired := by
  refine ⟨State.x_zero, State.setX_zero, fun s _ j v hi => s.x_setX_of_ne_zero hi j v, ?_, fun s v => ?_⟩
  · intro i s hi
    obtain ⟨e, he⟩ := exists_hasEffect i s
    rw [he.exec_eq, Effect.apply_of_dest_zero (he.dest_eq.trans hi)]
  · exact (State.setRegister_of_regOk s rfl v).trans (congrArg (Prod.mk Reply.done) (s.setX_zero v))

/-- Settles O9: both states see the same effect (`HasEffect.exec_withGpr`). -/
theorem instructionReadsOnlyItsSources : Obligations.InstructionReadsOnlyItsSources := by
  intro i s g hagree
  obtain ⟨e, he⟩ := exists_hasEffect i s
  refine ⟨e.apply s, e.apply (s.withGpr g), he.exec_eq, he.exec_withGpr g hagree, e.apply_withGpr_w s g, e.apply_withGpr_mem s g, ?_⟩
  intro r hr
  exact Effect.x_apply_of_dest_eq (he.dest_eq.trans hr) _ _

/-- Settles O10: an effect keeps the control state, and every register but the destination. -/
theorem instructionsKeepControlState : Obligations.InstructionsKeepControlState := by
  intro i s
  obtain ⟨e, he⟩ := exists_hasEffect i s
  exact ⟨e.apply s, he.exec_eq, keepsControl_of_execCase (e.execCase s), fun r hr => Effect.x_apply_of_dest_ne (he.dest_eq ▸ hr) s⟩

end Sys2Proof.Claims
end

section
/-!
PROOFS. The memory device's accessors: the word read and the word write in either byte order (O16, O17), the byte accessors and the signed
word read (O18), and what is read back after a write (O19), by 20_memory.md rules R25 to R29 and R34. Each accessor is said once in range
and once out of range; what a write leaves of a byte is `Memory.byteAt_setWord` and `Memory.byteAt_setByte`.
-/

namespace Sys2Proof.Machine

/-! ## The accessors in range and out of range (R25 to R28) -/

variable {m : Memory} {a : Word}

theorem Memory.getWordUnsigned_of_valid (h : m.valid a 4 = true) :
    m.getWordUnsigned a = wordOfBytes m.cfg.order (m.byteAt a.toNat) (m.byteAt (a.toNat + 1)) (m.byteAt (a.toNat + 2))
      (m.byteAt (a.toNat + 3)) := by
  simp [Memory.getWordUnsigned, h]

theorem Memory.getWordUnsigned_of_not_valid (h : m.valid a 4 = false) : m.getWordUnsigned a = 0#32 := by
  simp [Memory.getWordUnsigned, h]

theorem Memory.setWord_of_not_valid (h : m.valid a 4 = false) (v : Word) : m.setWord a v = m := by
  simp [Memory.setWord, h]

theorem Memory.getByteUnsigned_of_valid (h : m.valid a 1 = true) : m.getByteUnsigned a = m.byteAt a.toNat := by
  simp [Memory.getByteUnsigned, h]

theorem Memory.getByteUnsigned_of_not_valid (h : m.valid a 1 = false) : m.getByteUnsigned a = 0#8 := by
  simp [Memory.getByteUnsigned, h]

theorem Memory.setByte_of_not_valid (h : m.valid a 1 = false) (v : Byte) : m.setByte a v = m := by
  simp [Memory.setByte, h]

/-! ## Which bytes a word write reaches (R27) -/

/-- The four bytes of a word write in range. -/
theorem Memory.byteAt_setWord_add (h : m.valid a 4 = true) (v : Word) {k : Nat} (hk : k < 4) :
    (m.setWord a v).byteAt (a.toNat + k) = byteOfWord m.cfg.order v k := by
  rw [Memory.byteAt_setWord, if_pos ⟨h, by omega, by omega⟩, Nat.add_sub_cancel_left]

/-- A word write reaches no byte but its four. -/
theorem Memory.byteAt_setWord_of_disjoint {c : Nat} (hc : c < a.toNat ∨ a.toNat + 4 ≤ c) (v : Word) :
    (m.setWord a v).byteAt c = m.byteAt c := by
  rw [Memory.byteAt_setWord, if_neg (by omega)]

/-- A word read depends on the parameters and on its four bytes alone. -/
theorem Memory.getWordUnsigned_congr {m' : Memory} (hcfg : m'.cfg = m.cfg)
    (hbytes : ∀ k < 4, m'.byteAt (a.toNat + k) = m.byteAt (a.toNat + k)) : m'.getWordUnsigned a = m.getWordUnsigned a := by
  have h0 : m'.byteAt a.toNat = m.byteAt a.toNat := hbytes 0 (by omega)
  simp [Memory.getWordUnsigned, Memory.valid, hcfg, h0, hbytes]

/-- A word written in range is read back, in either byte order and at any alignment (R34). -/
theorem Memory.getWordUnsigned_setWord_self (h : m.valid a 4 = true) (v : Word) : (m.setWord a v).getWordUnsigned a = v := by
  have h0 : (m.setWord a v).byteAt a.toNat = byteOfWord m.cfg.order v 0 := Memory.byteAt_setWord_add h v (k := 0) (by omega)
  rw [Memory.getWordUnsigned_of_valid (by simpa using h), h0, Memory.byteAt_setWord_add h v (by omega),
    Memory.byteAt_setWord_add h v (by omega), Memory.byteAt_setWord_add h v (by omega)]
  exact wordOfBytes_byteOfWord m.cfg.order v

end Sys2Proof.Machine

namespace Sys2Proof.Claims

open Sys2Proof.Machine

/-- Four bytes side by side are the OR of the bytes, each shifted to its place (R26). -/
theorem append_eq_or_shiftedByte (b0 b1 b2 b3 : Byte) :
    b3 ++ b2 ++ b1 ++ b0 = shiftedByte b0 0 ||| shiftedByte b1 1 ||| shiftedByte b2 2 ||| shiftedByte b3 3 := by
  apply BitVec.eq_of_getLsbD_eq
  intro i hi
  simp only [shiftedByte, BitVec.getLsbD_append, BitVec.getLsbD_or, BitVec.getLsbD_shiftLeft, BitVec.zeroExtend_eq_setWidth,
    BitVec.getLsbD_setWidth]
  grind

/-- A byte read as a two's-complement number (R28). -/
theorem byte_toInt_eq_ite (b : Byte) : b.toInt = if b.toNat < 128 then (b.toNat : Int) else b.toNat - 256 := by
  have hcond : 2 * b.toNat < 2 ^ 8 ↔ b.toNat < 128 := by omega
  rw [BitVec.toInt_eq_toNat_cond, if_congr hcond rfl rfl]
  rfl

/-! ## The obligations -/

/-- Settles O16: in each order the four bytes side by side, in their order of weight. -/
theorem wordReadByByteOrder : Obligations.WordReadByByteOrder := by
  intro m a
  refine ⟨Memory.getWordUnsigned_of_not_valid, fun hv horder => ?_, fun hv horder => ?_⟩
  · rw [Memory.getWordUnsigned_of_valid hv, horder]
    exact append_eq_or_shiftedByte ..
  · rw [Memory.getWordUnsigned_of_valid hv, horder]
    exact append_eq_or_shiftedByte ..

/-- Settles O17: the bytes the write reaches (`Memory.byteAt_setWord_add`) and the bytes it does not. -/
theorem wordWriteByByteOrder : Obligations.WordWriteByByteOrder := by
  intro m a v
  refine ⟨fun hv => Memory.setWord_of_not_valid hv v, fun hv horder k hk => ?_, fun hv horder k hk => ?_,
    fun c hc => Memory.byteAt_setWord_of_disjoint hc v, m.setWord_cfg a v, m.setWord_lock a v⟩
  · rw [Memory.byteAt_setWord_add hv v hk, horder, byteOfWord]
  · rw [Memory.byteAt_setWord_add hv v hk, horder, byteOfWord]

/-- Settles O19: the word's four bytes put together again, the byte itself, and a word read that meets none of the bytes written. -/
theorem readBackWhatWasWritten : Obligations.ReadBackWhatWasWritten := by
  refine ⟨fun m a v hv => Memory.getWordUnsigned_setWord_self hv v, fun m a v hv => ?_, fun m a b v hdisjoint => ?_⟩
  · rw [Memory.getByteUnsigned_of_valid (by simpa using hv), Memory.byteAt_setByte, if_pos ⟨hv, rfl⟩]
  · exact Memory.getWordUnsigned_congr (m.setWord_cfg a v) fun k hk => Memory.byteAt_setWord_of_disjoint (by omega) v

/-- Settles O18: the byte accessors case by case, a byte and a word read as signed numbers, and LW's register write. -/
theorem byteAndSignedAccessors : Obligations.ByteAndSignedAccessors := by
  refine ⟨fun m a v => ⟨Memory.getByteUnsigned_of_valid, fun hv => ⟨Memory.getByteUnsigned_of_not_valid hv,
    Memory.setByte_of_not_valid hv v⟩, byte_toInt_eq_ite _, fun hv c => ?_, m.setByte_cfg a v, m.setByte_lock a v⟩,
    fun m a => BitVec.ofInt_toInt, fun rt rs imm s hrt => ⟨_, rfl, ?_⟩⟩
  · simp [Memory.byteAt_setByte, hv]
  · rw [State.x_advance, State.x_setX_of_ne_zero s hrt, if_pos rfl, State.memRead, Memory.getWordSigned]

end Sys2Proof.Claims
end

section
/-!
PROOFS. What any number of cycles leaves alone and counts (O44), and that only `load` changes the program image (O20), by 10_state.md rules
R18, R20 and R90, 20_memory.md rules R25, R27 and R40. The relation `CountsCycles` holds of one cycle and composes.
-/

namespace Sys2Proof.Machine

/-- A word write reaches no byte outside the buffer: it is in range or does nothing (R25, R27). -/
theorem Memory.byteAt_setWord_of_outside {m : Memory} {c : Nat} (hc : c < m.cfg.base.toNat ∨ m.cfg.base.toNat + m.cfg.size ≤ c)
    (a v : Word) : (m.setWord a v).byteAt c = m.byteAt c := by
  rw [Memory.byteAt_setWord, if_neg]
  rintro ⟨hv, hlo, hhi⟩
  rw [Memory.valid_iff] at hv
  omega

end Sys2Proof.Machine

namespace Sys2Proof.Claims

open Sys2Proof.Machine

/-! ## What cycles keep and count -/

/-- `t` has counted `n` cycles since `s`, and its control state and its bytes outside the buffer are those of `s`. -/
structure CountsCycles (n : Nat) (s t : State) : Prop where
  cfg_eq : t.cfg = s.cfg
  image_eq : t.image = s.image
  ps_eq : t.ps = s.ps
  clk_eq : t.clk = s.clk
  freq_eq : t.freq = s.freq
  stopReq_eq : t.stopReq = s.stopReq
  memCfg_eq : t.mem.cfg = s.mem.cfg
  lock_eq : t.mem.lock = s.mem.lock
  icount_eq : t.icount = s.icount + BitVec.ofNat 64 n
  byteAt_eq : ∀ a, (a < s.mem.cfg.base.toNat ∨ s.mem.cfg.base.toNat + s.mem.cfg.size ≤ a) → t.mem.byteAt a = s.mem.byteAt a

variable {s t u : State} {n k : Nat}

theorem CountsCycles.refl (s : State) : CountsCycles 0 s s :=
  ⟨rfl, rfl, rfl, rfl, rfl, rfl, rfl, rfl, (BitVec.add_zero _).symm, fun _ _ => rfl⟩

theorem CountsCycles.trans (hst : CountsCycles n s t) (htu : CountsCycles k t u) : CountsCycles (n + k) s u where
  cfg_eq := htu.cfg_eq.trans hst.cfg_eq
  image_eq := htu.image_eq.trans hst.image_eq
  ps_eq := htu.ps_eq.trans hst.ps_eq
  clk_eq := htu.clk_eq.trans hst.clk_eq
  freq_eq := htu.freq_eq.trans hst.freq_eq
  stopReq_eq := htu.stopReq_eq.trans hst.stopReq_eq
  memCfg_eq := htu.memCfg_eq.trans hst.memCfg_eq
  lock_eq := htu.lock_eq.trans hst.lock_eq
  icount_eq := by rw [htu.icount_eq, hst.icount_eq, BitVec.add_assoc, BitVec.ofNat_add]
  byteAt_eq a ha := (htu.byteAt_eq a (by rwa [hst.memCfg_eq])).trans (hst.byteAt_eq a ha)

/-- No end of an instruction changes a byte outside the buffer. -/
theorem byteAt_of_execCase (h : ExecCase s t) {a : Nat}
    (ha : a < s.mem.cfg.base.toNat ∨ s.mem.cfg.base.toNat + s.mem.cfg.size ≤ a) : t.mem.byteAt a = s.mem.byteAt a := by
  cases h with
  | reg | pc => rfl
  | mem b v => exact Memory.byteAt_setWord_of_outside ha b v

theorem CountsCycles.of_execCase (h : ExecCase s t) : CountsCycles 1 s t.tick := by
  obtain ⟨hcfg, himage, hps, hclk, hfreq, hicount, hstop, hmemCfg, hlock⟩ := keepsControl_of_execCase h
  exact ⟨hcfg, himage, hps, hclk, hfreq, hstop, hmemCfg, hlock, congrArg (· + 1#64) hicount, fun _ => byteAt_of_execCase h⟩

theorem CountsCycles.of_stepCase : StepCase s t → CountsCycles 1 s t
  | .advance => ⟨rfl, rfl, rfl, rfl, rfl, rfl, rfl, rfl, rfl, fun _ _ => rfl⟩
  | .exec _ h => .of_execCase h

theorem CountsCycles.of_step (h : step s = .next t) : CountsCycles 1 s t := .of_stepCase (step_cases h)

theorem countsCycles_cycle (s : State) : CountsCycles 1 s s.cycle := .of_step (step_eq_next_cycle s)

theorem countsCycles_cycles (n : Nat) (s : State) : CountsCycles n s (State.cycles n s) := by
  induction n generalizing s with
  | zero => exact .refl s
  | succ n ih =>
    rw [State.cycles_succ, Nat.add_comm]
    exact (countsCycles_cycle s).trans (ih s.cycle)

/-! ## The program image (R18, R40) -/

/-- `t` has the program image of `s`, at the same place. -/
def KeepsImage (s t : State) : Prop := t.image = s.image ∧ t.ps = s.ps

theorem CountsCycles.keepsImage (h : CountsCycles n s t) : KeepsImage s t := ⟨h.image_eq, h.ps_eq⟩

theorem keepsImage_driverIteration (s : State) : KeepsImage s s.driverIteration := by
  cases hclk : s.clk with
  | stopped => rw [State.driverIteration_of_stopped hclk]; exact ⟨rfl, rfl⟩
  | running =>
    rw [State.driverIteration_of_running hclk]
    split
    · exact ⟨rfl, rfl⟩
    · exact (countsCycles_cycle s).keepsImage

theorem keepsImage_stepCall (s : State) (count : BitVec 32) : KeepsImage s (s.stepCall count).2 := by
  cases hclk : s.clk with
  | stopped =>
    rw [State.stepCall_of_stopped hclk]
    exact (countsCycles_cycles count.toNat s).keepsImage
  | running => rw [State.stepCall_of_running hclk]; exact ⟨rfl, rfl⟩

theorem keepsImage_run (s : State) (f : BitVec 32) : KeepsImage s (s.run f).2 := by
  by_cases hf : f = 0#32
  · rw [hf, State.run_zero]; exact ⟨rfl, rfl⟩
  · rw [State.run_of_ne_zero s hf]; exact ⟨rfl, rfl⟩

theorem keepsImage_stop (s : State) : KeepsImage s s.stop.2 := by
  cases hclk : s.clk with
  | stopped => rw [State.stop_of_stopped hclk]; exact ⟨rfl, rfl⟩
  | running =>
    rw [State.stop_of_running hclk, State.requestStop_of_running hclk]
    exact ⟨rfl, rfl⟩

theorem keepsImage_setRegister (s : State) (i : Nat) (v : Word) : KeepsImage s (s.setRegister i v).2 := by
  by_cases hi : regOk i = true
  · rw [State.setRegister_of_regOk s hi]; exact ⟨rfl, rfl⟩
  · rw [State.setRegister_of_not_regOk s hi]; exact ⟨rfl, rfl⟩

/-- Every host call but `load` (R96), one arm per call. -/
theorem keepsImage_call (s : State) : ∀ c : HostCall, (∀ src start, c ≠ .load src start) → KeepsImage s (s.call c).2
  | .load src start, hload => absurd rfl (hload src start)
  | .step count, _ => keepsImage_stepCall s count
  | .run frequency, _ => keepsImage_run s frequency
  | .stop, _ => keepsImage_stop s
  | .getRegister i, _ => ⟨congrArg State.image (s.getRegister_snd i), congrArg State.ps (s.getRegister_snd i)⟩
  | .setRegister i v, _ => keepsImage_setRegister s i v
  | .getPc, _ | .setPc _, _ | .getMemory _, _ | .setMemory _ _, _ => ⟨rfl, rfl⟩

/-! ## The obligations -/

/-- Settles O20: a cycle keeps the image, and so does each call but `load`. -/
theorem onlyLoadChangesTheImage : Obligations.OnlyLoadChangesTheImage :=
  ⟨fun _ _ h => (CountsCycles.of_step h).keepsImage, keepsImage_driverIteration, fun c s => keepsImage_call s c⟩

/-- Settles O44, by induction on the number of cycles (`countsCycles_cycles`). -/
theorem cyclesKeepControlAndCount : Obligations.CyclesKeepControlAndCount := by
  intro n s
  obtain ⟨hcfg, himage, hps, hclk, hfreq, hstop, hmemCfg, hlock, hicount, hbytes⟩ := countsCycles_cycles n s
  exact ⟨hcfg, himage, hps, hclk, hfreq, hstop, hmemCfg, hlock, hicount, hbytes⟩

end Sys2Proof.Claims
end

section
/-!
PROOFS. Several cores over one Memory (O56): sharing by reference and the legal states as one invariant of a system, `System.Legal`, which
every event keeps (20_memory.md rules R24, R33; 60_exceptions.md rule R93).
-/

namespace Sys2Proof.Machine

/-! ## The accessors keep the Memory canonical, in its buffer and of the same parameters (R26 to R28) -/

theorem Memory.call_cfg (c : MemCall) (m : Memory) : (m.call c).2.cfg = m.cfg := by cases c <;> rfl

theorem Memory.call_wf {m : Memory} (h : m.wf = true) : ∀ c : MemCall, (m.call c).2.wf = true
  | .setWord a v => Memory.setWord_wf a v h
  | .setByte a v => Memory.setByte_wf a v h
  | .getWordUnsigned _ | .getWordSigned _ | .getByteUnsigned _ | .getByteSigned _ => h

theorem Memory.call_inBuffer {m : Memory} (h : m.inBuffer = true) : ∀ c : MemCall, (m.call c).2.inBuffer = true
  | .setWord a v => Memory.setWord_inBuffer a v h
  | .setByte a v => Memory.setByte_inBuffer a v h
  | .getWordUnsigned _ | .getWordSigned _ | .getByteUnsigned _ | .getByteSigned _ => h

/-! ## An outside agent's events, case by case (R33) -/

theorem System.event_beginAccess_of_free {n : System} (h : n.memory.lock = none) (g : Agent) :
    n.event (.beginAccess g) = n.setMemory { n.memory with lock := some g } := by
  simp [System.event, h]

theorem System.event_beginAccess_of_held {n : System} {g' : Agent} (h : n.memory.lock = some g') (g : Agent) :
    n.event (.beginAccess g) = n := by
  simp [System.event, h]

theorem System.event_endAccess_of_holder {n : System} {g : Agent} (h : n.memory.lock = some g) (c : MemCall) :
    n.event (.endAccess g c) = n.setMemory { (n.memory.call c).2 with lock := none } := by
  simp [System.event, h]

theorem System.event_endAccess_of_not_holder {n : System} {g : Agent} (h : n.memory.lock ≠ some g) (c : MemCall) :
    n.event (.endAccess g c) = n := by
  simp [System.event, h]

/-! ## A legal core on another Memory -/

theorem State.Inv.withMem {s : State} (h : s.Inv) {m : Memory} (hwf : m.wf = true) (hbuf : m.inBuffer = true)
    (hsize : m.cfg.size ≤ 2 ^ 32) : (s.withMem m).Inv := by
  obtain ⟨hr0, hps, himage, -, -, -, hclock⟩ := h
  exact ⟨hr0, hps, himage, hwf, hbuf, hsize, hclock⟩

theorem State.Inv.manualCycle {s : State} (h : s.Inv) : s.manualCycle.Inv := by
  unfold State.manualCycle
  split
  · exact h
  · exact h.cycle

/-! ## The invariant of a system -/

/-- Every core sees the one Memory and is legal, and the Memory is canonical and in its buffer. The Memory's two clauses stand here
beside those of the cores because a system may have no core. -/
structure System.Legal (n : System) : Prop where
  coherent : n.Coherent
  cores_inv : ∀ s ∈ n.cores, s.Inv
  memory_wf : n.memory.wf = true
  memory_inBuffer : n.memory.inBuffer = true

/-- Whatever Memory is given to all cores, all of them see it (R93). -/
theorem System.coherent_setMemory (n : System) (m : Memory) : (n.setMemory m).Coherent := by
  intro s hs
  obtain ⟨u, -, rfl⟩ := List.mem_map.mp hs
  rfl

variable {n : System}

/-- An outside agent leaves a Memory of the same parameters. -/
theorem System.Legal.setMemory (h : n.Legal) {m : Memory} (hwf : m.wf = true) (hbuf : m.inBuffer = true)
    (hcfg : m.cfg = n.memory.cfg) : (n.setMemory m).Legal where
  coherent := n.coherent_setMemory m
  cores_inv s hs := by
    obtain ⟨u, hu, rfl⟩ := List.mem_map.mp hs
    have huInv : u.Inv := h.cores_inv u hu
    have hsize : m.cfg.size ≤ 2 ^ 32 := by
      obtain ⟨-, -, -, -, -, hsize, -⟩ := huInv
      rwa [hcfg, ← h.coherent u hu]
    exact huInv.withMem hwf hbuf hsize
  memory_wf := hwf
  memory_inBuffer := hbuf

/-- A core that acts leaves a legal state, so its Memory suits every other core. -/
theorem System.Legal.replaceCore (h : n.Legal) (i : Nat) {t : State} (ht : t.Inv) : (n.replaceCore i t).Legal := by
  have ⟨_, _, _, hwf, hbuf, hsize, _⟩ := ht
  refine ⟨System.coherent_setMemory _ _, fun s hs => ?_, hwf, hbuf⟩
  obtain ⟨u, hu, rfl⟩ := List.mem_map.mp hs
  obtain hu | rfl := List.mem_or_eq_of_mem_set hu
  · exact (h.cores_inv u hu).withMem hwf hbuf hsize
  · exact ht

/-- An act that keeps a core's state legal keeps the system legal, whether it takes place or waits. -/
theorem System.Legal.act (h : n.Legal) (i : Nat) (needs : State → Bool) {f : State → State} (hf : ∀ s : State, s.Inv → (f s).Inv) :
    (n.act i needs f).Legal := by
  obtain hwait | ⟨s, hs, -, hact⟩ := n.act_cases i needs f
  · rwa [hwait]
  · have hmem : s ∈ n.cores := List.mem_of_getElem? hs
    have hsame : s.withMem n.memory = s := by rw [← h.coherent s hmem]; rfl
    rw [hact, hsame]
    exact h.replaceCore i (hf s (h.cores_inv s hmem))

theorem System.Legal.beginAccess (h : n.Legal) (g : Agent) : (n.event (.beginAccess g)).Legal := by
  cases hlock : n.memory.lock with
  | none =>
    rw [System.event_beginAccess_of_free hlock]
    exact h.setMemory h.memory_wf h.memory_inBuffer rfl
  | some g' => rwa [System.event_beginAccess_of_held hlock]

theorem System.Legal.endAccess (h : n.Legal) (g : Agent) (c : MemCall) : (n.event (.endAccess g c)).Legal := by
  by_cases hlock : n.memory.lock = some g
  · rw [System.event_endAccess_of_holder hlock]
    exact h.setMemory (Memory.call_wf h.memory_wf c) (Memory.call_inBuffer h.memory_inBuffer c) (Memory.call_cfg c n.memory)
  · rwa [System.event_endAccess_of_not_holder hlock]

/-- Every event, one arm per kind. -/
theorem System.Legal.event (h : n.Legal) : ∀ e : Event, (n.event e).Legal
  | .tick i => h.act i State.tickNeedsMemory fun _ hs => hs.driverIteration
  | .manual i => h.act i State.touchesMemory fun _ hs => hs.manualCycle
  | .call i c => h.act i (fun _ => c.needsMemory) fun _ hs => hs.call c
  | .requestStop i => h.act i (fun _ => false) fun _ hs => hs.requestStop
  | .beginAccess g => h.beginAccess g
  | .endAccess g c => h.endAccess g c

theorem System.Legal.events (h : n.Legal) (es : List Event) : (System.events es n).Legal := by
  induction es generalizing n with
  | nil => exact h
  | cons e es ih => exact ih (h.event e)

end Sys2Proof.Machine

namespace Sys2Proof.Claims

open Sys2Proof.Machine

/-- Settles O56, by induction on the events (`System.Legal.events`). -/
theorem sharersSeeOneMemory : Obligations.SharersSeeOneMemory := by
  intro es n hcoherent hcores hwf hbuf
  have hlegal : (System.events es n).Legal := System.Legal.events ⟨hcoherent, hcores, hwf, hbuf⟩ es
  exact ⟨hlegal.coherent, hlegal.cores_inv, hlegal.memory_wf⟩

end Sys2Proof.Claims
end

section
/-!
PROOFS. The fields of a word (O5), the decoder and the encoder (O1), and the decoder and the opcode map (O3), by 30_encoding.md rules R43 to
R49. A word selects a row of the map iff it has the opcode (and, of opcode 0x00, the funct) of the row's bits; with that the two writings
of the map are compared on opcode and funct.
-/

namespace Sys2Proof

/-! ## The fields as numbers (R43) -/

/-- A field is a quotient by its lowest bit's weight, modulo its width. -/
theorem toNat_extractLsb'_eq_div_mod (w : Word) (start len : Nat) :
    (w.extractLsb' start len).toNat = w.toNat / 2 ^ start % 2 ^ len := by
  rw [BitVec.extractLsb'_toNat, Nat.shiftRight_eq_div_pow]

/-- The opcode reaches the top of the word, so no reduction is needed. -/
theorem toNat_opcodeOf (w : Word) : (opcodeOf w).toNat = w.toNat / 2 ^ 26 := by
  have hw : w.toNat < 2 ^ 32 := w.isLt
  rw [opcodeOf, toNat_extractLsb'_eq_div_mod, Nat.mod_eq_of_lt (by omega)]

/-- A field that begins at bit 0 is a remainder. -/
theorem toNat_extractLsb'_zero (w : Word) (len : Nat) : (w.extractLsb' 0 len).toNat = w.toNat % 2 ^ len := by
  rw [toNat_extractLsb'_eq_div_mod, Nat.pow_zero, Nat.div_one]

/-! ## The decoder on an encoded word (R44, R46) -/

theorem decode_of_opcode_zero {w : Word} (h : opcodeOf w = 0x00#6) : decode w = decodeRType w := if_pos h

@[simp] theorem decode_encodeR (rs rt rd : Reg) (shamt : Shamt) (funct : BitVec 6) :
    decode (encodeR rs rt rd shamt funct) = decodeRType (encodeR rs rt rd shamt funct) :=
  decode_of_opcode_zero (opcodeOf_encodeR ..)

/-- One case per layout: the decoder dispatches on the codes that the encoder wrote, and reads back the operands. -/
theorem decode_encode (i : Instr) : decode (encode i) = .listed i := by
  cases i with
  | and | or | xor | add | sub | sll | srl | slt => simp [encode, decodeRType]
  | beq | lw | sw | andi | ori | addi => simp [encode, decode]
  | j => simp [encode, decode]

/-! ## What selects a row of the opcode map (R47) -/

theorem and_mask_eq_bits_iff_of_mem_opcodeRowsR {row : OpcodeRow} (h : row ∈ opcodeRowsR) (w : Word) :
    w &&& row.mask = row.bits ↔ opcodeOf w = 0x00#6 ∧ functOf w = functOf row.bits := by
  have hshape : ∀ row ∈ opcodeRowsR, row.mask = 0xFC00003F#32 ∧ row.bits = 0x00#6 ++ 0#20 ++ functOf row.bits := by decide
  obtain ⟨hmask, hbits⟩ := hshape row h
  rw [hmask, ← and_maskR_eq_iff, ← hbits]

theorem and_mask_eq_bits_iff_of_mem_opcodeRowsIJ {row : OpcodeRow} (h : row ∈ opcodeRowsIJ) (w : Word) :
    w &&& row.mask = row.bits ↔ opcodeOf w = opcodeOf row.bits := by
  have hshape : ∀ row ∈ opcodeRowsIJ, row.mask = 0xFC000000#32 ∧ row.bits = opcodeOf row.bits ++ 0#26 := by decide
  obtain ⟨hmask, hbits⟩ := hshape row h
  rw [hmask, ← and_maskIJ_eq_iff, ← hbits]

/-- Rows whose bits disagree where both masks look are never selected together. -/
theorem not_both_selected {row row' : OpcodeRow} (h : row.bits &&& row'.mask ≠ row'.bits &&& row.mask) (w : Word) :
    ¬ (w &&& row.mask = row.bits ∧ w &&& row'.mask = row'.bits) := by
  rintro ⟨hrow, hrow'⟩
  rw [← hrow, ← hrow', BitVec.and_assoc, BitVec.and_assoc, BitVec.and_comm row.mask] at h
  exact h rfl

/-- Any two rows disagree where both masks look. -/
theorem opcodeTable_pairwise_disagree :
    opcodeTable.Pairwise fun row row' => row.bits &&& row'.mask ≠ row'.bits &&& row.mask := by decide

/-! ## The decoder row by row -/

theorem decodeRType_of_mem_opcodeRowsR {row : OpcodeRow} (h : row ∈ opcodeRowsR) {w : Word}
    (hfunct : functOf w = functOf row.bits) : decodeRType w = .listed (row.build w) := by
  simp only [opcodeRowsR, List.mem_cons, List.not_mem_nil, or_false] at h
  rcases h with rfl | rfl | rfl | rfl | rfl | rfl | rfl | rfl <;> simp only [decodeRType, hfunct] <;> rfl

theorem decode_of_mem_opcodeRowsIJ {row : OpcodeRow} (h : row ∈ opcodeRowsIJ) {w : Word}
    (hopcode : opcodeOf w = opcodeOf row.bits) : decode w = .listed (row.build w) := by
  simp only [opcodeRowsIJ, List.mem_cons, List.not_mem_nil, or_false] at h
  rcases h with rfl | rfl | rfl | rfl | rfl | rfl | rfl <;> simp only [decode, hopcode] <;> rfl

/-- A word that selects a row decodes to the row's instruction. -/
theorem decode_of_mem_opcodeTable {row : OpcodeRow} (h : row ∈ opcodeTable) {w : Word} (hsel : w &&& row.mask = row.bits) :
    decode w = .listed (row.build w) := by
  rcases List.mem_append.mp h with hR | hIJ
  · obtain ⟨hopcode, hfunct⟩ := (and_mask_eq_bits_iff_of_mem_opcodeRowsR hR w).mp hsel
    rw [decode_of_opcode_zero hopcode, decodeRType_of_mem_opcodeRowsR hR hfunct]
  · exact decode_of_mem_opcodeRowsIJ hIJ ((and_mask_eq_bits_iff_of_mem_opcodeRowsIJ hIJ w).mp hsel)

end Sys2Proof

namespace Sys2Proof.Claims

/-! ## The unlisted words (R49) -/

/-- Every listed funct stands in an R-type row. -/
theorem exists_row_of_mem_listedFuncts : ∀ funct ∈ listedFuncts, ∃ row ∈ opcodeRowsR, functOf row.bits = funct := by decide

/-- Every listed opcode but 0x00 stands in an I-type or J-type row. -/
theorem exists_row_of_mem_listedOpcodes :
    ∀ opcode ∈ listedOpcodes, opcode ≠ 0x00#6 → ∃ row ∈ opcodeRowsIJ, opcodeOf row.bits = opcode := by decide

/-- A word that selects no row has an unlisted opcode, or opcode 0x00 and an unlisted funct. -/
theorem unlisted_of_selects_no_row {w : Word} (h : ∀ row ∈ opcodeTable, w &&& row.mask ≠ row.bits) :
    opcodeOf w ∉ listedOpcodes ∨ (opcodeOf w = 0x00#6 ∧ functOf w ∉ listedFuncts) := by
  by_cases hzero : opcodeOf w = 0x00#6
  · refine .inr ⟨hzero, fun hfunct => ?_⟩
    obtain ⟨row, hrow, heq⟩ := exists_row_of_mem_listedFuncts _ hfunct
    exact h row (List.mem_append_left _ hrow) ((and_mask_eq_bits_iff_of_mem_opcodeRowsR hrow w).mpr ⟨hzero, heq.symm⟩)
  · refine .inl fun hopcode => ?_
    obtain ⟨row, hrow, heq⟩ := exists_row_of_mem_listedOpcodes _ hopcode hzero
    exact h row (List.mem_append_right _ hrow) ((and_mask_eq_bits_iff_of_mem_opcodeRowsIJ hrow w).mpr heq.symm)

theorem selects_no_row_of_decode_eq_nopUnlisted {w : Word} (h : decode w = .nopUnlisted) :
    ∀ row ∈ opcodeTable, w &&& row.mask ≠ row.bits := by
  intro row hrow hsel
  rw [decode_of_mem_opcodeTable hrow hsel] at h
  cases h

/-- On an unlisted opcode or funct every test of the decoder fails. -/
theorem decode_eq_nopUnlisted_of_unlisted {w : Word}
    (h : opcodeOf w ∉ listedOpcodes ∨ (opcodeOf w = 0x00#6 ∧ functOf w ∉ listedFuncts)) : decode w = .nopUnlisted := by
  rcases h with hopcode | ⟨hzero, hfunct⟩
  · simp only [listedOpcodes, List.mem_cons, List.not_mem_nil, or_false, not_or] at hopcode
    simp [decode, hopcode]
  · simp only [listedFuncts, List.mem_cons, List.not_mem_nil, or_false, not_or] at hfunct
    simp [decode_of_opcode_zero hzero, decodeRType, hfunct]

/-- The decoder, the rows and the lists agree: each of the three ways to be unlisted gives the next. -/
theorem unlisted_tfae (w : Word) :
    [decode w = .nopUnlisted, ∀ row ∈ opcodeTable, w &&& row.mask ≠ row.bits,
      opcodeOf w ∉ listedOpcodes ∨ (opcodeOf w = 0x00#6 ∧ functOf w ∉ listedFuncts)].TFAE := by
  tfae_have 1 → 2 := selects_no_row_of_decode_eq_nopUnlisted
  tfae_have 2 → 3 := unlisted_of_selects_no_row
  tfae_have 3 → 1 := decode_eq_nopUnlisted_of_unlisted
  tfae_finish

/-! ## The obligations -/

/-- Settles O1, layout by layout (`decode_encode`). -/
theorem decodeUndoesEncode : Obligations.DecodeUndoesEncode := fun i _ => decode_encode i

/-- Settles O3: the rows are compared with the decoder on opcode and funct, and the ways to be unlisted with each other
(`unlisted_tfae`). -/
theorem opcodeMapIsExact : Obligations.OpcodeMapIsExact :=
  ⟨fun _ hrow _ hsel => decode_of_mem_opcodeTable hrow hsel, fun w => (unlisted_tfae w).out 0 1,
    opcodeTable_pairwise_disagree.imp not_both_selected, by decide, by decide, fun w => (unlisted_tfae w).out 0 2⟩

/-- Settles O5: each field is a quotient and a remainder of the word. -/
theorem fieldsOfAWord : Obligations.FieldsOfAWord := fun w =>
  ⟨toNat_opcodeOf w, toNat_extractLsb'_eq_div_mod w 21 5, toNat_extractLsb'_eq_div_mod w 16 5, toNat_extractLsb'_eq_div_mod w 11 5,
    toNat_extractLsb'_eq_div_mod w 6 5, toNat_extractLsb'_zero w 6, toNat_extractLsb'_zero w 16, toNat_extractLsb'_zero w 26⟩

end Sys2Proof.Claims
end

section
/-!
PROOFS. The R-type ALU instructions (O21 to O28), by 40_r_type_alu.md rules R55 to R63. Each statement has two halves: the row, which is a
row of the opcode map (`rowMeans_of_mem_opcodeTable`), and the effect, which is one register write (`exec_writesRegister`). What is left of
an instruction is its value, as the numbers the rule writes it with.
-/

namespace Sys2Proof.Machine

/-! ## The values as numbers (R7) -/

variable (a b : Word)

/-- A sum, modulo 2^32 (R59). -/
theorem add_eq_ofNat_mod : a + b = BitVec.ofNat 32 ((a.toNat + b.toNat) % 2 ^ 32) := by
  rw [← BitVec.toNat_add, BitVec.ofNat_toNat, BitVec.setWidth_eq]

/-- A difference, modulo 2^32 (R60): 2^32 - b + a, as the bit vectors compute it, and a - b leave the same remainder. -/
theorem sub_eq_ofInt_mod : a - b = BitVec.ofInt 32 (((a.toNat : Int) - b.toNat) % 2 ^ 32) := by
  have ha : a.toNat < 2 ^ 32 := a.isLt
  have hb : b.toNat < 2 ^ 32 := b.isLt
  apply BitVec.eq_of_toNat_eq
  rw [BitVec.toNat_sub, BitVec.toNat_ofInt]
  omega

/-- A left shift is a multiplication, modulo 2^32 (R61). -/
theorem shiftLeft_eq_ofNat_mod (n : Nat) : a <<< n = BitVec.ofNat 32 (a.toNat * 2 ^ n % 2 ^ 32) := by
  rw [← Nat.shiftLeft_eq, ← BitVec.toNat_shiftLeft, BitVec.ofNat_toNat, BitVec.setWidth_eq]

/-- A logical right shift is a quotient (R62). -/
theorem ushiftRight_eq_ofNat_div (n : Nat) : a >>> n = BitVec.ofNat 32 (a.toNat / 2 ^ n) := by
  rw [← Nat.shiftRight_eq_div_pow, ← BitVec.toNat_ushiftRight, BitVec.ofNat_toNat, BitVec.setWidth_eq]

/-- SLT's value under unsigned comparison (R63). -/
theorem boolWord_lessThan_unsigned : boolWord (lessThan .unsigned a b) = if a.toNat < b.toNat then 1 else 0 := by
  simp [boolWord, lessThan, BitVec.ult]

/-- SLT's value under signed comparison (R63). -/
theorem boolWord_lessThan_signed : boolWord (lessThan .signed a b) = if a.toInt < b.toInt then 1 else 0 := by
  simp [boolWord, lessThan, BitVec.slt]

end Sys2Proof.Machine

namespace Sys2Proof.Claims

open Sys2Proof.Machine

/-! ## The two halves of a statement about an instruction that writes one register -/

/-- Every row of the opcode map means its instruction (R47). -/
theorem rowMeans_of_mem_opcodeTable {row : OpcodeRow} (h : row ∈ opcodeTable) : RowMeans row.bits row.mask row.build :=
  fun _ hsel => decode_of_mem_opcodeTable h hsel

/-- The register write that ends an instruction has the whole effect R55 names: the destination, the advance, and nothing else. -/
theorem writesRegister_setX_advance (s : State) (rd : Reg) (v : Word) : WritesRegister s (s.setX rd v).advance rd v :=
  ⟨fun r => s.x_setX rd r v, rfl, keepsControl_of_execCase (.reg rd v), fun _ => rfl⟩

/-- An instruction that ends in a register write completes, and has that write's effect. -/
theorem exec_writesRegister {i : Instr} {s : State} {rd : Reg} {v v' : Word} (hexec : exec i s = s.writeReg rd v) (hv : v = v') :
    ∃ t, exec i s = .next t ∧ WritesRegister s t rd v' :=
  ⟨_, hexec, hv ▸ writesRegister_setX_advance s rd v⟩

/-- funct 0x26 is in no row (R51): its words decode to the no-op. -/
theorem decode_eq_nopUnlisted_of_funct_26 {w : Word} (h : w &&& 0xFC00003F#32 = 0x00000026#32) : decode w = .nopUnlisted := by
  obtain ⟨hopcode, hfunct⟩ := (and_maskR_eq_iff w 0x00#6 0x26#6).mp h
  exact decode_eq_nopUnlisted_of_unlisted (.inr ⟨hopcode, hfunct ▸ by decide⟩)

/-! ## The obligations -/

/-- Settles O21: the row and the register write. -/
theorem andResult : Obligations.AndResult :=
  ⟨rowMeans_of_mem_opcodeTable (row := opcodeTable[0]) (List.getElem_mem _), fun _ _ _ _ => exec_writesRegister rfl rfl⟩

/-- Settles O22: the row and the register write. -/
theorem orResult : Obligations.OrResult :=
  ⟨rowMeans_of_mem_opcodeTable (row := opcodeTable[1]) (List.getElem_mem _), fun _ _ _ _ => exec_writesRegister rfl rfl⟩

/-- Settles O23: the row, the unlisted neighbour at funct 0x26, and the register write. -/
theorem xorResult : Obligations.XorResult :=
  ⟨rowMeans_of_mem_opcodeTable (row := opcodeTable[2]) (List.getElem_mem _), fun _ => decode_eq_nopUnlisted_of_funct_26,
    fun _ _ _ _ => exec_writesRegister rfl rfl⟩

/-- Settles O24: the word sum is the sum of the numbers modulo 2^32 (`add_eq_ofNat_mod`). -/
theorem addResult : Obligations.AddResult :=
  ⟨rowMeans_of_mem_opcodeTable (row := opcodeTable[3]) (List.getElem_mem _),
    fun _ _ _ _ => exec_writesRegister rfl (add_eq_ofNat_mod ..)⟩

/-- Settles O25: the word difference is the difference of the integers modulo 2^32 (`sub_eq_ofInt_mod`). -/
theorem subResult : Obligations.SubResult :=
  ⟨rowMeans_of_mem_opcodeTable (row := opcodeTable[4]) (List.getElem_mem _),
    fun _ _ _ _ => exec_writesRegister rfl (sub_eq_ofInt_mod ..)⟩

/-- Settles O26: a left shift is a multiplication (`shiftLeft_eq_ofNat_mod`). -/
theorem sllResult : Obligations.SllResult :=
  ⟨rowMeans_of_mem_opcodeTable (row := opcodeTable[5]) (List.getElem_mem _),
    fun _ _ _ _ => exec_writesRegister rfl (shiftLeft_eq_ofNat_mod ..)⟩

/-- Settles O27: a logical right shift is a quotient (`ushiftRight_eq_ofNat_div`). -/
theorem srlResult : Obligations.SrlResult :=
  ⟨rowMeans_of_mem_opcodeTable (row := opcodeTable[6]) (List.getElem_mem _),
    fun _ _ _ _ => exec_writesRegister rfl (ushiftRight_eq_ofNat_div ..)⟩

/-- Settles O28: one case per `SLT_MODE`, each a comparison of numbers. -/
theorem sltResult : Obligations.SltResult := by
  refine ⟨rowMeans_of_mem_opcodeTable (row := opcodeTable[7]) (List.getElem_mem _), fun rd rs rt s => exec_writesRegister rfl ?_⟩
  cases s.cfg.sltMode with
  | unsigned => exact boolWord_lessThan_unsigned ..
  | signed => exact boolWord_lessThan_signed ..

end Sys2Proof.Claims
end


section
/-!
PROOFS. A store of one core seen by another (O60), by 42_load_store.md rule R67, 20_memory.md rule R38 and 60_exceptions.md rule R93. A manual
cycle under a free lock is the instruction carried out on the core with the shared Memory (`System.event_manual_of_exec`). The store
leaves its word in the Memory of every sharer, and the load reads it there (`Memory.getWordUnsigned_setWord_self`).
-/

namespace Sys2Proof.Machine

/-- A register write read back from its own register, r0 included (R13). -/
theorem State.x_setX_self (s : State) (i : Reg) (v : Word) : (s.setX i v).x i = if i = 0#5 then 0#32 else v := by
  split
  case isTrue hi => rw [hi, State.x_zero]
  case isFalse hi => rw [State.x_setX_of_ne_zero s hi, if_pos rfl]

/-! ## A stopped core and the instruction its next cycle executes -/

/-- The clock is stopped and the next cycle executes `k` (R74, R80). -/
structure State.StoppedBefore (s : State) (k : Instr) : Prop where
  clk_eq : s.clk = .stopped
  fetches : ∃ inst, s.fetch = some inst ∧ decode inst = .listed k

variable {s t : State} {k : Instr} {n : System} {i : Nat}

/-- Neither the clock nor what a core fetches is in the shared Memory. -/
theorem State.StoppedBefore.withMem (h : s.StoppedBefore k) (m : Memory) : (s.withMem m).StoppedBefore k where
  clk_eq := h.clk_eq
  fetches := h.fetches

/-- A manual cycle is the instruction and the count (R73, R80). -/
theorem State.StoppedBefore.manualCycle_eq (h : s.StoppedBefore k) (hexec : exec k s = .next t) : s.manualCycle = t.tick := by
  obtain ⟨inst, hfetch, hdecode⟩ := h.fetches
  have hstep : step s = .next t.tick := step_of_listed hfetch hdecode hexec
  simp [State.manualCycle, h.clk_eq, State.cycle_of_step hstep]

/-! ## A manual cycle under a free lock -/

/-- The instruction acts on the shared Memory, and the Memory it leaves is every sharer's (R93). -/
theorem System.event_manual_of_exec (hs : n.cores[i]? = some s) (hlock : n.memory.lock = none) (hk : s.StoppedBefore k)
    (hexec : exec k (s.withMem n.memory) = .next t) : n.event (.manual i) = n.replaceCore i t.tick := by
  rw [← (hk.withMem n.memory).manualCycle_eq hexec]
  exact System.act_of_free hs (.inl hlock) State.manualCycle

variable {rt rs : Reg} {imm : Imm16}

/-- A SW leaves its core advanced and counted, with the word written to the shared Memory (R67). -/
theorem System.event_manual_sw (hs : n.cores[i]? = some s) (hlock : n.memory.lock = none) (hk : s.StoppedBefore (.sw rt rs imm)) :
    n.event (.manual i) = n.replaceCore i ((s.withMem n.memory).memWrite (s.ea rs imm) (s.x rt)).advance.tick :=
  System.event_manual_of_exec hs hlock hk rfl

/-- A LW leaves its core advanced and counted, with the word of the shared Memory in the destination (R66). -/
theorem System.event_manual_lw (hs : n.cores[i]? = some s) (hlock : n.memory.lock = none) (hk : s.StoppedBefore (.lw rt rs imm)) :
    n.event (.manual i) =
      n.replaceCore i ((s.withMem n.memory).setX rt (n.memory.getWordUnsigned (s.ea rs imm))).advance.tick :=
  System.event_manual_of_exec hs hlock hk rfl

/-- The destination of a LW then holds the word of the shared Memory, or 0 where it is r0 (R66, R13). -/
theorem System.exists_core_event_manual_lw (hs : n.cores[i]? = some s) (hlock : n.memory.lock = none)
    (hk : s.StoppedBefore (.lw rt rs imm)) :
    ∃ t, (n.event (.manual i)).cores[i]? = some t ∧ t.x rt = if rt = 0 then 0 else n.memory.getWordUnsigned (s.ea rs imm) := by
  rw [System.event_manual_lw hs hlock hk]
  exact ⟨_, System.replaceCore_self hs _, State.x_setX_self ..⟩

end Sys2Proof.Machine

namespace Sys2Proof.Claims

open Sys2Proof.Machine

/-- Settles O60: after the store's cycle core `j` sees the Memory with the word written, and its load reads that word back. -/
theorem sharersSeeAStore : Obligations.SharersSeeAStore := by
  intro n i j s u store load rt rs rd base imm off _ hlock hij hs hu hsclk hsfetch hsdecode huclk hufetch hudecode hea hvalid
  have hsw : s.StoppedBefore (.sw rt rs imm) := ⟨hsclk, store, hsfetch, hsdecode⟩
  have hlw : u.StoppedBefore (.lw rd base off) := ⟨huclk, load, hufetch, hudecode⟩
  have hstored := System.event_manual_sw hs hlock hsw
  have hmem : (n.event (.manual i)).memory = n.memory.setWord (s.ea rs imm) (s.x rt) := by rw [hstored]; rfl
  have hcore : (n.event (.manual i)).cores[j]? = some (u.withMem (n.event (.manual i)).memory) := by
    rw [hstored, System.replaceCore_other hij.symm, hu]; rfl
  have hlock' : (n.event (.manual i)).memory.lock = none := by rwa [hmem]
  obtain ⟨t, ht, hx⟩ := System.exists_core_event_manual_lw hcore hlock' (hlw.withMem _)
  have hread : (n.event (.manual i)).memory.getWordUnsigned (u.ea base off) = s.x rt := by
    rw [hmem, hea, Memory.getWordUnsigned_setWord_self hvalid]
  exact ⟨t, ht, hread ▸ hx⟩

end Sys2Proof.Claims
end


section
/-!
PROOFS. The immediate ALU instructions (O35 to O37), by 43_immediate_alu.md rules R68 to R71. As for the R-type instructions, a statement is a
row of the opcode map (`rowMeans_of_mem_opcodeTable`) and one register write (`exec_writesRegister`). What is left is the immediate, as the
number its extension keeps.
-/

namespace Sys2Proof.Machine

/-! ## The extended immediates as numbers (R68) -/

/-- The zero extension is the word of the immediate's unsigned value (R8). -/
theorem zext16_eq_ofNat (v : Imm16) : zext16 v = BitVec.ofNat 32 v.toNat := (BitVec.ofNat_toNat 32 v).symm

/-- A sum with a sign-extended immediate is the sum with its signed value, modulo 2^32 (R71). -/
theorem add_sext16_eq_ofInt_mod (a : Word) (v : Imm16) : a + sext16 v = BitVec.ofInt 32 (((a.toNat : Int) + v.toInt) % 2 ^ 32) := by
  have hsum : ((a + sext16 v).toNat : Int) = ((a.toNat : Int) + v.toInt) % 2 ^ 32 := by rw [toNat_add_toInt, sext16_toInt]
  rw [← hsum, BitVec.ofInt_natCast, BitVec.ofNat_toNat, BitVec.setWidth_eq]

end Sys2Proof.Machine

namespace Sys2Proof.Claims

open Sys2Proof.Machine

/-- Settles O35: the row, and the register write with the zero-extended immediate (`zext16_eq_ofNat`). -/
theorem andiResult : Obligations.AndiResult :=
  ⟨rowMeans_of_mem_opcodeTable (row := opcodeTable[11]) (List.getElem_mem _),
    fun _ rs imm s => exec_writesRegister rfl (congrArg (s.x rs &&& ·) (zext16_eq_ofNat imm))⟩

/-- Settles O36: the row, and the register write with the zero-extended immediate (`zext16_eq_ofNat`). -/
theorem oriResult : Obligations.OriResult :=
  ⟨rowMeans_of_mem_opcodeTable (row := opcodeTable[12]) (List.getElem_mem _),
    fun _ rs imm s => exec_writesRegister rfl (congrArg (s.x rs ||| ·) (zext16_eq_ofNat imm))⟩

/-- Settles O37: the row, and the word sum as the sum of the numbers modulo 2^32 (`add_sext16_eq_ofInt_mod`). -/
theorem addiResult : Obligations.AddiResult :=
  ⟨rowMeans_of_mem_opcodeTable (row := opcodeTable[13]) (List.getElem_mem _),
    fun _ _ _ _ => exec_writesRegister rfl (add_sext16_eq_ofInt_mod ..)⟩

end Sys2Proof.Claims
end


section
/-!
PROOFS. The jump (O30), by 44_jump.md rule R72. Replacing the low 26 bits of an address is a quotient, a product and a sum
(`toNat_replaceLow26`), and each `J_BASE` applies it to its own address. The frame is that of an instruction that writes the PC only
(`writesPcOnly_setW`).
-/

namespace Sys2Proof.Machine

/-! ## The target as a number (R72) -/

/-- The target keeps the multiple of 2^26 below the address, and adds itself to it. -/
theorem toNat_replaceLow26 (t : WordAddr) (target : Target26) :
    (replaceLow26 t target).toNat = t.toNat / 2 ^ 26 * 2 ^ 26 + target.toNat := by
  have ht : t.toNat < 2 ^ 30 := t.isLt
  have hhigh : (t.extractLsb' 26 4).toNat = t.toNat / 2 ^ 26 := by
    rw [BitVec.extractLsb'_toNat, Nat.shiftRight_eq_div_pow, Nat.mod_eq_of_lt (by omega)]
  calc (replaceLow26 t target).toNat
    _ = (t.extractLsb' 26 4 ++ target : BitVec 30).toNat := by rw [replaceLow26_eq_append]
    _ = (t.extractLsb' 26 4).toNat <<< 26 ||| target.toNat := BitVec.toNat_append ..
    _ = (t.extractLsb' 26 4).toNat <<< 26 + target.toNat := (Nat.shiftLeft_add_eq_or_of_lt target.isLt _).symm
    _ = t.toNat / 2 ^ 26 * 2 ^ 26 + target.toNat := by rw [hhigh, Nat.shiftLeft_eq]

variable {s : State} (target : Target26)

theorem State.jumpTarget_of_absolute (h : s.cfg.jBase = .absolute) : s.jumpTarget target = replaceLow26 s.w target := by
  simp [State.jumpTarget, h]

theorem State.jumpTarget_of_imageRelative (h : s.cfg.jBase = .imageRelative) :
    s.jumpTarget target = s.psw + replaceLow26 s.fakePc target := by
  simp [State.jumpTarget, h]

/-- In the image-relative case the sum with `PSW` may leave the 30 bits, and wraps. -/
theorem State.toNat_jumpTarget_of_imageRelative (h : s.cfg.jBase = .imageRelative) :
    (s.jumpTarget target).toNat = (s.ps.toNat / 4 + (s.fakePc.toNat / 2 ^ 26 * 2 ^ 26 + target.toNat)) % 2 ^ 30 := by
  rw [State.jumpTarget_of_imageRelative target h, BitVec.toNat_add, State.psw, wordAddrOf_toNat, toNat_replaceLow26]

/-! ## An image at address 0 (R15) -/

theorem State.psw_of_ps_zero (h : s.ps = 0) : s.psw = 0#30 := by
  rw [State.psw, h]
  rfl

theorem State.fakePc_of_ps_zero (h : s.ps = 0) : s.fakePc = s.w := by
  rw [State.fakePc, State.psw_of_ps_zero h, BitVec.sub_zero]

/-- With the image at address 0 a word address is its own `fake_pc`, so either `J_BASE` gives the absolute target. -/
theorem State.jumpTarget_of_ps_zero (h : s.ps = 0) : s.jumpTarget target = replaceLow26 s.w target := by
  cases hbase : s.cfg.jBase with
  | absolute => exact State.jumpTarget_of_absolute target hbase
  | imageRelative =>
    rw [State.jumpTarget_of_imageRelative target hbase, State.psw_of_ps_zero h, State.fakePc_of_ps_zero h, BitVec.zero_add]

end Sys2Proof.Machine

namespace Sys2Proof.Claims

open Sys2Proof.Machine

/-- The PC write that ends an instruction has no other effect (R64, R72). -/
theorem writesPcOnly_setW (s : State) (nextW : WordAddr) : WritesPcOnly s (s.setW nextW) :=
  ⟨s.x_setW nextW, keepsControl_of_execCase (.pc nextW), fun _ => rfl⟩

/-- Settles O30: the row, the PC write with one case per `J_BASE`, and the agreement at `PS = 0` (`State.jumpTarget_of_ps_zero`). -/
theorem jumpResult : Obligations.JumpResult := by
  refine ⟨rowMeans_of_mem_opcodeTable (row := opcodeTable[14]) (List.getElem_mem _),
    fun target s => ⟨s.setW (s.jumpTarget target), rfl, writesPcOnly_setW .., ?_⟩, fun target s hps => ?_⟩
  · rw [State.setW_w]
    cases hbase : s.cfg.jBase with
    | absolute => rw [State.jumpTarget_of_absolute target hbase, toNat_replaceLow26]
    | imageRelative => exact State.toNat_jumpTarget_of_imageRelative target hbase
  · rw [State.jumpTarget_of_ps_zero target hps, State.jumpTarget_of_absolute target rfl]

end Sys2Proof.Claims
end


section
/-!
PROOFS. The cycle's listed and unlisted words (O38, O39) and the default advance of `W` (O42), by 45_step_and_pc_update.md rules R73 to R76.
Every instruction but BEQ and J ends in a register write or a store (`exec_of_fallsThrough`), and both end in the advance.
-/

namespace Sys2Proof.Machine

variable {s t : State} {i : Instr}

/-- With `fake_pc` inside the image the word fetched is `IMG[fake_pc]` (R74). -/
theorem State.fetch_of_lt (h : s.fakePc.toNat < s.image.length) : s.fetch = some (s.image[s.fakePc.toNat]'h) :=
  List.getElem?_eq_getElem h

/-- An instruction that answers a next state has ended in one of the three ways. -/
theorem execCase_of_exec (h : exec i s = .next t) : ExecCase s t := by
  obtain ⟨u, hu, hcase⟩ := exec_cases i s
  rw [h] at hu
  cases hu
  exact hcase

/-- The advance as a number: the 30 bits of `W` wrap (R75). -/
theorem State.toNat_advance_w (s : State) : s.advance.w.toNat = (s.w.toNat + 1) % 2 ^ 30 := BitVec.toNat_add s.w 1#30

/-- A BEQ not taken is the advance alone (R64). -/
theorem exec_beq_of_ne {rs rt : Reg} (h : s.x rs ≠ s.x rt) (imm : Imm16) : exec (.beq rs rt imm) s = .next s.advance := by
  have hne : s.regsEqual rs rt = false := beq_false_of_ne h
  simp [exec, execBeq, hne, State.goTo, State.setW, State.advance]

end Sys2Proof.Machine

namespace Sys2Proof.Claims

open Sys2Proof.Machine

variable {i : Instr} {s t : State}

/-- An instruction does not count itself, so the cycle's count starts from the counter before it (R73). -/
theorem tick_of_exec (h : exec i s = .next t) : t.tick = { t with icount := s.icount + 1 } := by
  obtain ⟨-, -, -, -, -, hicount, -⟩ := keepsControl_of_execCase (execCase_of_exec h)
  rw [← hicount]
  rfl

/-- Every instruction but BEQ and J ends in a register write or in a store. -/
theorem exec_of_fallsThrough (h : fallsThrough i = true) (s : State) :
    (∃ rd v, exec i s = s.writeReg rd v) ∨ ∃ a v, exec i s = s.store a v := by
  cases i with
  | beq | j => cases h
  | sw => exact .inr ⟨_, _, rfl⟩
  | and | or | xor | add | sub | sll | srl | slt | lw | andi | ori | addi => exact .inl ⟨_, _, rfl⟩

/-- Either end advances `W` from where the instruction found it. -/
theorem exec_advances (h : fallsThrough i = true) (s : State) : ∃ t, exec i s = .next t ∧ t.w = s.advance.w := by
  obtain ⟨rd, v, hwrite⟩ | ⟨a, v, hstore⟩ := exec_of_fallsThrough h s
  · exact ⟨(s.setX rd v).advance, hwrite, rfl⟩
  · exact ⟨(s.memWrite a v).advance, hstore, rfl⟩

/-! ## The obligations -/

/-- Settles O42: an instruction that falls through, an unlisted word and a BEQ not taken leave the `W` of the advance,
`W + 1` modulo 2^30 (`State.toNat_advance_w`). -/
theorem defaultAdvance : Obligations.DefaultAdvance := by
  refine ⟨fun i s hi => ?_, fun s inst hfetch hdecode => ?_, fun rs rt imm s hne => ?_⟩
  · obtain ⟨t, hexec, hw⟩ := exec_advances hi s
    exact ⟨t, hexec, hw ▸ s.toNat_advance_w⟩
  · exact ⟨s.advance.tick, step_of_unlisted hfetch hdecode, s.toNat_advance_w⟩
  · exact ⟨s.advance, exec_beq_of_ne hne imm, s.toNat_advance_w⟩

/-- Settles O38: the fetch inside the image, and the instruction followed by the count (`tick_of_exec`). -/
theorem stepRunsDecodedInstruction : Obligations.StepRunsDecodedInstruction :=
  ⟨fun _ => State.fetch_of_lt, fun _ _ _ _ hfetch hdecode hexec => tick_of_exec hexec ▸ step_of_listed hfetch hdecode hexec⟩

/-- Settles O39: an unlisted word's cycle is the advance and the count. -/
theorem unlistedWordIsNoOp : Obligations.UnlistedWordIsNoOp := fun _ _ => step_of_unlisted

end Sys2Proof.Claims
end


section
/-!
PROOFS. Cores share nothing but the Memory (O58), by 60_exceptions.md rule R93 and 20_memory.md rules R33 and R38. An event of a core is an
act of the core (`System.act`), whatever the act does: it waits, or it replaces the core and the Memory every sharer sees. So what it
does to its own core (`coreActs_act`) and to another (`System.act_other`) is said once for all four kinds of event.
-/

namespace Sys2Proof.Machine

variable {n : System} {i j : Nat}

/-- Where all cores see the one Memory, giving it to a core again changes nothing. -/
theorem System.Coherent.map_withMem_getElem? (h : n.Coherent) (j : Nat) :
    (n.cores[j]?.map fun s => s.withMem n.memory) = n.cores[j]? := by
  cases hj : n.cores[j]? with
  | none => rfl
  | some s =>
    have hmem : s.mem = n.memory := h s (List.mem_of_getElem? hj)
    rw [← hmem]
    rfl

/-- An act of one core reaches another only through the Memory, whether it takes place or waits. -/
theorem System.act_other (h : n.Coherent) (hij : j ≠ i) (needs : State → Bool) (f : State → State) :
    (n.act i needs f).cores[j]? = n.cores[j]?.map fun s => s.withMem (n.act i needs f).memory := by
  obtain hwait | ⟨s, -, -, hact⟩ := n.act_cases i needs f
  · rw [hwait, h.map_withMem_getElem?]
  · rw [hact, System.replaceCore_memory, System.replaceCore_other hij]

end Sys2Proof.Machine

namespace Sys2Proof.Claims

open Sys2Proof.Machine

/-- An act that the lock does not hold up is the whole effect of its function on the core with the shared Memory. -/
theorem coreActs_act {n : System} {i : Nat} {u : State} (hu : n.cores[i]? = some u) {needs : State → Bool}
    (h : n.memory.lock = none ∨ needs (u.withMem n.memory) = false) (f : State → State) :
    CoreActs n (n.act i needs f) i (f (u.withMem n.memory)) := by
  rw [System.act_of_free hu h]
  exact ⟨System.replaceCore_self hu _, System.replaceCore_memory .., fun _ hj => System.replaceCore_other hj _⟩

/-- Giving a Memory to every sharer has no other effect. -/
theorem memoryBecomes_setMemory (n : System) (m : Memory) : MemoryBecomes n (n.setMemory m) m :=
  ⟨System.setMemory_memory n m, fun _ => List.getElem?_map⟩

/-- Settles O58: each event of a core is an act of it, on other cores (`System.act_other`), on its own where the act takes place
(`coreActs_act`) and where it waits; an outside agent's events give every sharer the Memory they leave. -/
theorem coresShareNothingElse : Obligations.CoresShareNothingElse := by
  refine ⟨?_, fun n i u hu => ?_, fun n g hfree => ?_, fun n g c hholder => ?_⟩
  · rintro n _ i j (rfl | rfl | ⟨c, rfl⟩ | rfl) hij hcoherent
    · exact System.act_other hcoherent hij State.tickNeedsMemory State.driverIteration
    · exact System.act_other hcoherent hij State.touchesMemory State.manualCycle
    · exact System.act_other hcoherent hij (fun _ => c.needsMemory) fun s => (s.call c).2
    · exact System.act_other hcoherent hij (fun _ => false) State.requestStop
  · exact ⟨fun h => coreActs_act hu h State.driverIteration, fun h => coreActs_act hu h State.manualCycle,
      fun c h => coreActs_act hu (needs := fun _ => c.needsMemory) h fun s => (s.call c).2,
      coreActs_act hu (needs := fun _ => false) (.inr rfl) State.requestStop,
      fun hheld hneeds => System.act_of_held hu hheld hneeds State.driverIteration,
      fun hheld hneeds => System.act_of_held hu hheld hneeds State.manualCycle,
      fun c hheld hneeds => System.act_of_held hu (needs := fun _ => c.needsMemory) hheld hneeds fun s => (s.call c).2⟩
  · rw [System.event_beginAccess_of_free hfree]
    exact memoryBecomes_setMemory n _
  · rw [System.event_endAccess_of_holder hholder]
    exact memoryBecomes_setMemory n _

end Sys2Proof.Claims
end


section
/-!
PROOFS. No instruction's effect depends on the clock, the counter or a stop request (O11), by 60_exceptions.md rule R89 and 10_state.md rule
R20; and the host's two memory calls are the word read and the word write (O49), by rule R99.
-/

namespace Sys2Proof.Machine

/-- The state with other values of `CLK`, `FREQ`, `ICOUNT` and `STOP_REQ` (R20, R22). -/
def State.withClock (s : State) (c : ClockState) (f : BitVec 32) (k : BitVec 64) (b : Bool) : State :=
  { s with clk := c, freq := f, icount := k, stopReq := b }

variable (s : State) (c : ClockState) (f : BitVec 32) (k : BitVec 64) (b : Bool)

/-- None of an instruction's ends reads or writes the four. -/
theorem Effect.apply_withClock (e : Effect) : e.apply (s.withClock c f k b) = (e.apply s).withClock c f k b := by
  cases e with
  | reg rd v => rfl
  | pc nextW => rfl
  | mem a v => rfl

/-- An instruction has the same effect whatever the four hold: its end is a register write, a PC write (BEQ, J) or a store (SW), with
operands that read none of them. -/
theorem exists_effect_withClock (i : Instr) :
    ∃ e : Effect, exec i s = .next (e.apply s) ∧ exec i (s.withClock c f k b) = .next (e.apply (s.withClock c f k b)) := by
  cases i with
  | beq | j => exact ⟨.pc _, rfl, rfl⟩
  | sw => exact ⟨.mem _ _, rfl, rfl⟩
  | and | or | xor | add | sub | sll | srl | slt | lw | andi | ori | addi => exact ⟨.reg _ _, rfl, rfl⟩

end Sys2Proof.Machine

namespace Sys2Proof.Claims

open Sys2Proof.Machine

/-- Settles O11: the effect is the same for all values of the four, and commutes with setting them. -/
theorem instructionsIgnoreClockAndCounter : Obligations.InstructionsIgnoreClockAndCounter := by
  intro i s c f k b
  obtain ⟨e, hexec, hexec'⟩ := exists_effect_withClock s c f k b i
  rw [Effect.apply_withClock] at hexec'
  exact ⟨e.apply s, hexec, hexec'⟩

/-- Settles O49: the calls are the Memory's accessors, which out of range read 0 and write nothing (R26, R27). -/
theorem hostMemoryAccess : Obligations.HostMemoryAccess := by
  refine fun s a v => ⟨rfl, rfl, fun hout => ⟨?_, ?_⟩⟩
  · exact congrArg (fun w => (Reply.word w, s)) (Memory.getWordUnsigned_of_not_valid hout)
  · exact congrArg (fun m => (Reply.done, s.withMem m)) (Memory.setWord_of_not_valid hout v)

end Sys2Proof.Claims
end


section
/-!
PROOFS. The words of a program file in either byte order (O52), by 70_reset_and_hazards.md rule R103.
-/

namespace Sys2Proof.Machine

/-- Word `k` of the image is made of the file's bytes `4k` to `4k + 3` (R103): the decoder takes four bytes for each word. -/
theorem getElem?_imageDecode (order : ByteOrder) : ∀ (bytes : List Byte) (k : Nat) (h : 4 * k + 3 < bytes.length),
    (imageDecode order bytes)[k]? = some (wordOfBytes order bytes[4 * k] bytes[4 * k + 1] bytes[4 * k + 2] bytes[4 * k + 3])
  | [], _, h | [_], _, h | [_, _], _, h | [_, _, _], _, h => by
    simp only [List.length_cons, List.length_nil] at h
    omega
  | _ :: _ :: _ :: _ :: _, 0, _ => rfl
  | _ :: _ :: _ :: _ :: rest, k + 1, h => getElem?_imageDecode order rest k (by simp only [List.length_cons] at h; omega)

end Sys2Proof.Machine

namespace Sys2Proof.Claims

open Sys2Proof.Machine

/-- Settles O52: the image's length, and word `k` from its four bytes, all inside the file; in each order they stand side by side in
their order of weight. -/
theorem programFileWords : Obligations.ProgramFileWords := by
  refine fun order bytes _ => ⟨imageDecode_length order bytes, fun k hk => ?_⟩
  have hfile : 4 * k + 3 < bytes.length := by omega
  refine ⟨bytes[4 * k], bytes[4 * k + 1], bytes[4 * k + 2], bytes[4 * k + 3], List.getElem?_eq_getElem _,
    List.getElem?_eq_getElem _, List.getElem?_eq_getElem _, List.getElem?_eq_getElem _, ?_⟩
  rw [getElem?_imageDecode order bytes k hfile]
  cases order with
  | little => exact congrArg some (append_eq_or_shiftedByte ..)
  | big => exact congrArg some (append_eq_or_shiftedByte ..)

end Sys2Proof.Claims
end


section
/-!
PROOFS. While an agent is inside an accessor the Memory stays as it is (O57), by 20_memory.md rules R33 and R38. Under a held lock an act
takes place only where it needs no access, and an act that needs none keeps the Memory, whichever kind of event it is
(`System.act_memory_of_held`).
-/

namespace Sys2Proof.Machine

variable {s t : State} {n : System} {g : Agent}

/-! ## What needs no access keeps the Memory (R38) -/

/-- An instruction that makes no access ends in a register write or a PC write. -/
theorem exec_mem_of_not_accessesMemory {i : Instr} (hi : accessesMemory i = false) (h : exec i s = .next t) : t.mem = s.mem := by
  cases i with
  | lw | sw => cases hi
  | and | or | xor | add | sub | sll | srl | slt | beq | andi | ori | addi | j => cases h; rfl

theorem State.cycle_mem_of_not_touchesMemory (h : s.touchesMemory = false) : s.cycle.mem = s.mem := by
  cases hf : s.fetch with
  | none => rw [State.cycle_of_step (step_of_past_end hf)]; rfl
  | some inst =>
    cases hd : decode inst with
    | nopUnlisted => rw [State.cycle_of_step (step_of_unlisted hf hd)]; rfl
    | listed i =>
      have hi : accessesMemory i = false := by simpa [State.touchesMemory, hf, hd] using h
      obtain ⟨t, ht, -⟩ := exec_cases i s
      rw [State.cycle_of_step (step_of_listed hf hd ht), State.tick_mem]
      exact exec_mem_of_not_accessesMemory hi ht

theorem State.driverIteration_mem_of_not_needs (h : s.tickNeedsMemory = false) : s.driverIteration.mem = s.mem := by
  cases hclk : s.clk with
  | stopped => rw [State.driverIteration_of_stopped hclk]
  | running =>
    rw [State.driverIteration_of_running hclk]
    split
    case isTrue => exact s.finishStop_mem
    case isFalse hstop =>
      have htouch : s.touchesMemory = false := by simpa [State.tickNeedsMemory, hclk, hstop] using h
      exact State.cycle_mem_of_not_touchesMemory htouch

theorem State.manualCycle_mem_of_not_touchesMemory (h : s.touchesMemory = false) : s.manualCycle.mem = s.mem := by
  unfold State.manualCycle
  split
  · rfl
  · exact State.cycle_mem_of_not_touchesMemory h

theorem State.requestStop_mem (s : State) : s.requestStop.mem = s.mem := by
  cases hclk : s.clk with
  | stopped => rw [State.requestStop_of_stopped hclk]
  | running => rw [State.requestStop_of_running hclk]

theorem State.load_mem (s : State) (src : Source) (start : Word) : (s.load src start).2.mem = s.mem := by
  obtain ⟨e, -, h⟩ | ⟨bytes, -, h⟩ := s.load_cases src start <;> rw [h]
  exact s.replaceImage_mem bytes start

theorem State.run_mem (s : State) (f : BitVec 32) : (s.run f).2.mem = s.mem := by
  by_cases hf : f = 0#32
  · rw [hf, State.run_zero]
  · rw [State.run_of_ne_zero s hf]

theorem State.stop_mem (s : State) : s.stop.2.mem = s.mem := by
  cases hclk : s.clk with
  | stopped => rw [State.stop_of_stopped hclk]
  | running => rw [State.stop_of_running hclk, State.finishStop_mem, State.requestStop_mem]

theorem State.setRegister_mem (s : State) (i : Nat) (v : Word) : (s.setRegister i v).2.mem = s.mem := by
  by_cases hi : regOk i = true
  · rw [State.setRegister_of_regOk s hi, State.setX_mem]
  · rw [State.setRegister_of_not_regOk s hi]

/-- A host call that needs no access keeps the Memory, one arm per call (R96). -/
theorem State.call_mem_of_not_needs (s : State) : ∀ c : HostCall, c.needsMemory = false → (s.call c).2.mem = s.mem
  | .load src start, _ => s.load_mem src start
  | .run frequency, _ => s.run_mem frequency
  | .stop, _ => s.stop_mem
  | .getRegister i, _ => congrArg State.mem (s.getRegister_snd i)
  | .setRegister i v, _ => s.setRegister_mem i v
  | .getPc, _ | .setPc _, _ => rfl

/-! ## Events under a held lock (R33) -/

/-- An act waits, or it needs no access and keeps the Memory it was given. -/
theorem System.act_memory_of_held (hlock : n.memory.lock = some g) (i : Nat) {needs : State → Bool} {f : State → State}
    (hf : ∀ s, needs s = false → (f s).mem = s.mem) : (n.act i needs f).memory = n.memory := by
  obtain hwait | ⟨s, -, hneeds | hfree, hact⟩ := n.act_cases i needs f
  · rw [hwait]
  · rw [hact, System.replaceCore_memory, hf _ hneeds, State.withMem_mem]
  · rw [hlock] at hfree
    cases hfree

/-- Every event, one arm per kind, but the holder's leaving. -/
theorem System.event_memory_of_held (hlock : n.memory.lock = some g) :
    ∀ e : Event, (∀ c, .endAccess g c ≠ e) → (n.event e).memory = n.memory
  | .tick i, _ => System.act_memory_of_held hlock i fun _ => State.driverIteration_mem_of_not_needs
  | .manual i, _ => System.act_memory_of_held hlock i fun _ => State.manualCycle_mem_of_not_touchesMemory
  | .call i c, _ => System.act_memory_of_held hlock i fun s => s.call_mem_of_not_needs c
  | .requestStop i, _ => System.act_memory_of_held hlock i fun s _ => s.requestStop_mem
  | .beginAccess _, _ => congrArg System.memory (System.event_beginAccess_of_held hlock _)
  | .endAccess g' c, hne => by
    have hother : n.memory.lock ≠ some g' := by
      rw [hlock]
      rintro ⟨⟩
      exact hne c rfl
    rw [System.event_endAccess_of_not_holder hother]

end Sys2Proof.Machine

namespace Sys2Proof.Claims

open Sys2Proof.Machine

/-- Settles O57, by induction on the events: none of them changes the Memory, so the lock stays held (`System.event_memory_of_held`). -/
theorem lockedMemoryIsUntouched : Obligations.LockedMemoryIsUntouched := by
  intro es
  induction es with
  | nil => exact fun _ _ _ _ => rfl
  | cons e es ih =>
    intro n g hlock hstays
    have hkept : (n.event e).memory = n.memory :=
      System.event_memory_of_held hlock e fun c h => hstays c (h ▸ List.mem_cons_self)
    have hrest : (System.events es (n.event e)).memory = (n.event e).memory :=
      ih _ g (by rwa [hkept]) fun c h => hstays c (List.mem_cons_of_mem e h)
    exact hrest.trans hkept

end Sys2Proof.Claims
end


section
/-!
PROOFS. The encoder against the decoder (O2), the fields a row ignores (O4), and the words written out from the spec (O6), by
30_encoding.md rules R43 to R48. A word is the layout of its own fields, and the significant bits of an R-type word are that layout with
one field set to zero. O4 then needs no bits: two words of one row that agree on the significant bits have one encoding.
-/

namespace Sys2Proof

/-! ## A word is the layout of its fields (R43, R44) -/

variable {w : Word}

theorem encodeI_fields (w : Word) : encodeI (opcodeOf w) (rsOf w) (rtOf w) (immOf w) = w := by
  apply BitVec.eq_of_getLsbD_eq
  intro i hi
  simp only [encodeI, opcodeOf, rsOf, rtOf, immOf, BitVec.getLsbD_append, BitVec.getLsbD_extractLsb']
  grind

theorem encodeR_fields (h : opcodeOf w = 0x00#6) : encodeR (rsOf w) (rtOf w) (rdOf w) (shamtOf w) (functOf w) = w := by
  rw [encodeR, ← h]
  apply BitVec.eq_of_getLsbD_eq
  intro i hi
  simp only [opcodeOf, rsOf, rtOf, rdOf, shamtOf, functOf, BitVec.getLsbD_append, BitVec.getLsbD_extractLsb']
  grind

theorem encodeJ_fields (h : opcodeOf w = 0x02#6) : encodeJ (targetOf w) = w := by
  rw [encodeJ, ← h]
  apply BitVec.eq_of_getLsbD_eq
  intro i hi
  simp only [opcodeOf, targetOf, BitVec.getLsbD_append, BitVec.getLsbD_extractLsb']
  grind

/-! ## The masks of R48 on an R-type word -/

variable (rs rt rd : Reg) (shamt : Shamt) (funct : BitVec 6)

/-- The mask of the R-type rows that name no `shamt`. -/
theorem encodeR_and_maskShamt : encodeR rs rt rd shamt funct &&& 0xFFFFF83F#32 = encodeR rs rt rd 0 funct := by
  have hmask : ∀ i < 32, (0xFFFFF83F#32).getLsbD i = !(decide (6 ≤ i) && decide (i < 11)) := by decide
  apply BitVec.eq_of_getLsbD_eq
  intro i hi
  simp only [encodeR, BitVec.getLsbD_and, hmask i hi, BitVec.getLsbD_append]
  grind

/-- The mask of the shifts, which name no `rs`. -/
theorem encodeR_and_maskRs : encodeR rs rt rd shamt funct &&& 0xFC1FFFFF#32 = encodeR 0 rt rd shamt funct := by
  have hmask : ∀ i < 32, (0xFC1FFFFF#32).getLsbD i = !(decide (21 ≤ i) && decide (i < 26)) := by decide
  apply BitVec.eq_of_getLsbD_eq
  intro i hi
  simp only [encodeR, BitVec.getLsbD_and, hmask i hi, BitVec.getLsbD_append]
  grind

/-! ## The encoder on a row's instruction (R44, R47, R48) -/

variable {row : OpcodeRow}

/-- An R-type row ignores `shamt`, or, the row of a shift, `rs`; the encoder writes the other fields as they stand. -/
theorem encode_build_cases_of_mem_opcodeRowsR (h : row ∈ opcodeRowsR) (w : Word) :
    (significantMask (row.build w) = 0xFFFFF83F#32 ∧
        encode (row.build w) = encodeR (rsOf w) (rtOf w) (rdOf w) 0 (functOf row.bits)) ∨
      (significantMask (row.build w) = 0xFC1FFFFF#32 ∧
        encode (row.build w) = encodeR 0 (rtOf w) (rdOf w) (shamtOf w) (functOf row.bits)) := by
  simp only [opcodeRowsR, List.mem_cons, List.not_mem_nil, or_false] at h
  rcases h with rfl | rfl | rfl | rfl | rfl | rfl | rfl | rfl
  exacts [.inl ⟨rfl, rfl⟩, .inl ⟨rfl, rfl⟩, .inl ⟨rfl, rfl⟩, .inl ⟨rfl, rfl⟩, .inl ⟨rfl, rfl⟩, .inr ⟨rfl, rfl⟩,
    .inr ⟨rfl, rfl⟩, .inl ⟨rfl, rfl⟩]

/-- An I-type or J-type row ignores nothing; the encoder writes every field as it stands. -/
theorem encode_build_cases_of_mem_opcodeRowsIJ (h : row ∈ opcodeRowsIJ) (w : Word) :
    significantMask (row.build w) = 0xFFFFFFFF#32 ∧
      (encode (row.build w) = encodeI (opcodeOf row.bits) (rsOf w) (rtOf w) (immOf w) ∨
        opcodeOf row.bits = 0x02#6 ∧ encode (row.build w) = encodeJ (targetOf w)) := by
  simp only [opcodeRowsIJ, List.mem_cons, List.not_mem_nil, or_false] at h
  rcases h with rfl | rfl | rfl | rfl | rfl | rfl | rfl
  exacts [⟨rfl, .inl rfl⟩, ⟨rfl, .inl rfl⟩, ⟨rfl, .inl rfl⟩, ⟨rfl, .inl rfl⟩, ⟨rfl, .inl rfl⟩, ⟨rfl, .inl rfl⟩,
    ⟨rfl, .inr ⟨rfl, rfl⟩⟩]

/-- The word of a row's instruction is the word it was read from, without the fields the row ignores. -/
theorem encode_build_of_selects (h : row ∈ opcodeTable) (hsel : w &&& row.mask = row.bits) :
    encode (row.build w) = w &&& significantMask (row.build w) := by
  rcases List.mem_append.mp h with hR | hIJ
  · obtain ⟨hopcode, hfunct⟩ := (and_mask_eq_bits_iff_of_mem_opcodeRowsR hR w).mp hsel
    have hw : w = encodeR (rsOf w) (rtOf w) (rdOf w) (shamtOf w) (functOf row.bits) := by rw [← hfunct, encodeR_fields hopcode]
    obtain ⟨hmask, henc⟩ | ⟨hmask, henc⟩ := encode_build_cases_of_mem_opcodeRowsR hR w
    · rw [hmask, henc, ← encodeR_and_maskShamt _ _ _ (shamtOf w), ← hw]
    · rw [hmask, henc, ← encodeR_and_maskRs (rsOf w), ← hw]
  · have hopcode := (and_mask_eq_bits_iff_of_mem_opcodeRowsIJ hIJ w).mp hsel
    have hall : w &&& 0xFFFFFFFF#32 = w := BitVec.and_allOnes
    obtain ⟨hmask, henc | ⟨hj, henc⟩⟩ := encode_build_cases_of_mem_opcodeRowsIJ hIJ w
    · rw [hmask, henc, hall, ← hopcode, encodeI_fields]
    · rw [hmask, henc, hall, encodeJ_fields (hopcode.trans hj)]

/-! ## Which words a row reads alike (R48) -/

/-- What a row ignores does not depend on the operands. -/
theorem significantMask_build_eq (h : row ∈ opcodeTable) (w w' : Word) :
    significantMask (row.build w') = significantMask (row.build w) := by
  simp only [opcodeTable, opcodeRowsR, opcodeRowsIJ, List.cons_append, List.nil_append, List.mem_cons, List.not_mem_nil,
    or_false] at h
  rcases h with rfl | rfl | rfl | rfl | rfl | rfl | rfl | rfl | rfl | rfl | rfl | rfl | rfl | rfl | rfl <;> rfl

/-- The bits that select a row are all significant. -/
theorem significantMask_build_and_mask (h : row ∈ opcodeTable) (w : Word) :
    significantMask (row.build w) &&& row.mask = row.mask := by
  have hzero : ∀ row ∈ opcodeTable, significantMask (row.build 0#32) &&& row.mask = row.mask := by decide
  rw [significantMask_build_eq h 0#32, hzero row h]

/-- No two instructions have the same word. -/
theorem encode_injective {i i' : Instr} (h : encode i = encode i') : i = i' := by
  have hlisted : Decoded.listed i = .listed i' := by rw [← decode_encode i, h, decode_encode]
  exact Decoded.listed.inj hlisted

end Sys2Proof

namespace Sys2Proof.Claims

variable {w w' : Word} {i : Instr}

/-- A word that is listed selects a row, which it means. -/
theorem exists_row_of_decode_eq_listed (h : decode w = .listed i) :
    ∃ row ∈ opcodeTable, w &&& row.mask = row.bits ∧ row.build w = i := by
  have hlisted : ¬ ∀ row ∈ opcodeTable, w &&& row.mask ≠ row.bits := fun hno => by
    have hunlisted : decode w = .nopUnlisted := ((unlisted_tfae w).out 0 1).mpr hno
    rw [hunlisted] at h
    cases h
  push Not at hlisted
  obtain ⟨row, hrow, hsel⟩ := hlisted
  rw [decode_of_mem_opcodeTable hrow hsel] at h
  exact ⟨row, hrow, hsel, Decoded.listed.inj h⟩

theorem encode_of_decode_eq_listed (h : decode w = .listed i) : encode i = w &&& significantMask i := by
  obtain ⟨row, hrow, hsel, rfl⟩ := exists_row_of_decode_eq_listed h
  exact encode_build_of_selects hrow hsel

/-- A word that agrees on the significant bits selects the same row, and so has the same encoding. -/
theorem decode_eq_listed_of_agrees (h : decode w = .listed i) (hagree : w' &&& significantMask i = w &&& significantMask i) :
    decode w' = .listed i := by
  obtain ⟨row, hrow, hsel, rfl⟩ := exists_row_of_decode_eq_listed h
  have hsel' : w' &&& row.mask = row.bits := by
    rw [← hsel, ← significantMask_build_and_mask hrow w, ← BitVec.and_assoc, hagree, BitVec.and_assoc]
  have henc : encode (row.build w') = encode (row.build w) := by
    rw [encode_build_of_selects hrow hsel', encode_build_of_selects hrow hsel, significantMask_build_eq hrow w, hagree]
  rw [decode_of_mem_opcodeTable hrow hsel', encode_injective henc]

/-! ## The obligations -/

/-- Settles O2, row by row (`encode_build_of_selects`). -/
theorem encodeUndoesDecode : Obligations.EncodeUndoesDecode := fun _ _ => encode_of_decode_eq_listed

/-- Settles O4: the two words select one row and have one encoding (`decode_eq_listed_of_agrees`). -/
theorem ignoredFieldsChangeNothing : Obligations.IgnoredFieldsChangeNothing := fun _ _ _ => decode_eq_listed_of_agrees

/-- Settles O6: the decoder evaluated on each of the eight words. -/
theorem wordsFromTheSpecDecode : Obligations.WordsFromTheSpecDecode := by
  unfold Obligations.WordsFromTheSpecDecode
  decide

end Sys2Proof.Claims
end


section
/-!
PROOFS. The effective address and the range test (O31), LW and SW (O32, O33), and a LW that sees the core's own SW (O34), by
42_load_store.md rules R65 to R67 and 20_memory.md rules R25 and R38. A LW is one register write and a SW one word write, at an address
formed from the registers before either.
-/

namespace Sys2Proof.Machine

/-- The address as a number: the base and the signed offset, modulo 2^32 (R65). -/
theorem State.toNat_ea (s : State) (rs : Reg) (imm : Imm16) :
    ((s.ea rs imm).toNat : Int) = ((s.x rs).toNat + imm.toInt) % 2 ^ 32 := by
  rw [State.ea, toNat_add_toInt, sext16_toInt]

/-- The range test in integers with no truncated difference (R25). -/
theorem Memory.valid_iff_int (m : Memory) (a : Word) (width : Nat) : m.valid a width = true ↔
    (m.cfg.base.toNat : Int) ≤ a.toNat ∧ (a.toNat : Int) - m.cfg.base.toNat + width ≤ m.cfg.size := by
  rw [Memory.valid_iff]
  omega

/-- A word written in range is what the next read of its address gives, once the store has advanced (R34, R38). -/
theorem State.memRead_memWrite_advance_self {s : State} {a : Word} (h : s.mem.valid a 4 = true) (v : Word) :
    (s.memWrite a v).advance.memRead a = v := Memory.getWordUnsigned_setWord_self h v

end Sys2Proof.Machine

namespace Sys2Proof.Claims

open Sys2Proof.Machine

/-- A SW completes, keeps the registers and the control state, advances, and leaves the Memory of one word write (R67). -/
theorem exec_sw_writesWord (rt rs : Reg) (imm : Imm16) (s : State) :
    ∃ t, exec (.sw rt rs imm) s = .next t ∧ KeepsRegisters s t ∧ KeepsControl s t ∧ t.w = s.w + 1 ∧
      t.mem = s.mem.setWord (s.ea rs imm) (s.x rt) :=
  ⟨(s.memWrite (s.ea rs imm) (s.x rt)).advance, rfl, fun _ => rfl, keepsControl_of_execCase (.mem _ _), rfl, rfl⟩

/-! ## The obligations -/

/-- Settles O31: the sum as numbers, and the range test in integers. -/
theorem effectiveAddressAndRange : Obligations.EffectiveAddressAndRange := ⟨State.toNat_ea, Memory.valid_iff_int⟩

/-- Settles O32: the row, and the register write of the word read. -/
theorem lwResult : Obligations.LwResult :=
  ⟨rowMeans_of_mem_opcodeTable (row := opcodeTable[9]) (List.getElem_mem _), fun _ _ _ _ => exec_writesRegister rfl rfl⟩

/-- Settles O33: the row, and what the word write reaches (`Memory.byteAt_setWord`). -/
theorem swResult : Obligations.SwResult := by
  refine ⟨rowMeans_of_mem_opcodeTable (row := opcodeTable[10]) (List.getElem_mem _), fun rt rs imm s => ?_⟩
  obtain ⟨t, hexec, hregs, hcontrol, hw, hmem⟩ := exec_sw_writesWord rt rs imm s
  exact ⟨t, hexec, hregs, hcontrol, hw, hmem ▸ Memory.byteAt_setWord s.mem (s.ea rs imm) (s.x rt)⟩

/-- Settles O34: the store leaves the base register and so the address, where the load reads the word back. -/
theorem loadSeesOwnStore : Obligations.LoadSeesOwnStore := by
  intro rt rs rd imm s hrd hvalid
  refine ⟨(s.memWrite (s.ea rs imm) (s.x rt)).advance, _, rfl, rfl, ?_⟩
  rw [State.x_advance, State.x_setX_of_ne_zero _ hrd, if_pos rfl]
  exact State.memRead_memWrite_advance_self hvalid (s.x rt)

end Sys2Proof.Claims
end


section
/-!
PROOFS. BEQ (O29), a finished program (O43), and label resolution as the inverse of BEQ and J (O59), by 41_branch.md rule R64,
45_step_and_pc_update.md rule R82 and 30_encoding.md rule R53. A taken BEQ is the PC write of its target (`exec_beq_of_eq`). A label in
reach loses nothing when its difference is cut to 16 bits, or its address to 26.
-/

namespace Sys2Proof.Machine

variable {s : State} {rs rt : Reg}

/-! ## The branch and its target (R64) -/

/-- A taken BEQ is the PC write of the target. -/
theorem exec_beq_of_eq (h : s.x rs = s.x rt) (imm : Imm16) : exec (.beq rs rt imm) s = .next (s.setW (s.branchTarget imm)) := by
  have heq : s.regsEqual rs rt = true := beq_iff_eq.mpr h
  simp [exec, execBeq, heq, State.goTo]

/-- The target as a number: the branch's own address and the signed offset, modulo 2^30. -/
theorem State.toNat_branchTarget (s : State) (imm : Imm16) :
    ((s.branchTarget imm).toNat : Int) = ((s.w.toNat : Int) + imm.toInt) % 2 ^ 30 := by
  rw [State.branchTarget, toNat_add_toInt, sext16to30_toInt]

/-! ## A finished program (R82) -/

/-- The `halt` word branches to itself, so its cycle only counts. -/
theorem State.cycle_of_finished (h : s.finished = true) : s.cycle = s.tick := by
  have hfetch : s.fetch = some haltWord := beq_iff_eq.mp h
  have hdecode : decode haltWord = .listed (.beq 0 0 0) := by decide
  have htarget : s.branchTarget 0 = s.w := BitVec.add_zero s.w
  have hexec : exec (.beq 0 0 0) s = .next s := (exec_beq_of_eq rfl 0).trans (by rw [htarget]; rfl)
  exact State.cycle_of_step (step_of_listed hfetch hdecode hexec)

/-- The fetch does not read the counter. -/
theorem State.finished_tick (s : State) : s.tick.finished = s.finished := rfl

theorem State.cycles_of_finished (n : Nat) (h : s.finished = true) :
    State.cycles n s = { s with icount := s.icount + BitVec.ofNat 64 n } := by
  induction n generalizing s with
  | zero => rw [State.cycles_zero, BitVec.add_zero]
  | succ n ih =>
    have hcount : s.tick.icount + BitVec.ofNat 64 n = s.icount + BitVec.ofNat 64 (n + 1) := by
      rw [State.tick_icount, BitVec.add_assoc, Nat.add_comm n, BitVec.ofNat_add]
    rw [State.cycles_succ, State.cycle_of_finished h, ih (s.finished_tick ▸ h), hcount]
    rfl

/-! ## The difference to a label in 16 bits (R53) -/

theorem simm16Ok_iff (n : Int) : simm16Ok n = true ↔ -32768 ≤ n ∧ n ≤ 32767 := by
  simp [simm16Ok]

/-- A difference in the reach of BEQ is the extension of its low 16 bits. -/
theorem sext16to30_extractLsb'_of_simm16Ok {d : WordAddr} (h : simm16Ok d.toInt = true) : sext16to30 (d.extractLsb' 0 16) = d := by
  rw [simm16Ok_iff] at h
  rw [← BitVec.toInt_inj, sext16to30_toInt]
  calc (d.extractLsb' 0 16).toInt
    _ = (d.toNat : Int).bmod (2 ^ 16) := BitVec.toInt_extractLsb'
    _ = d.toInt.bmod (2 ^ 16) := by rw [BitVec.toInt_eq_toNat_bmod, Int.bmod_bmod_of_dvd (by decide)]
    _ = d.toInt := Int.bmod_eq_of_le_mul_two (by omega) (by omega)

/-- The low 16 bits of an offset in 30 bits are the offset in 16 bits. -/
theorem extractLsb'_ofInt (off : Int) : (BitVec.ofInt 30 off).extractLsb' 0 16 = BitVec.ofInt 16 off := by
  apply BitVec.eq_of_toNat_eq
  rw [BitVec.extractLsb'_toNat, BitVec.toNat_ofInt, BitVec.toNat_ofInt, Nat.shiftRight_zero]
  omega

theorem beqLabel_eq_some {label here : WordAddr} {imm : Imm16} (h : beqLabel label here = some imm) :
    simm16Ok (label - here).toInt = true ∧ imm = (label - here).extractLsb' 0 16 := by
  unfold beqLabel at h
  split at h
  case isTrue hok => exact ⟨hok, (Option.some.inj h).symm⟩
  case isFalse => cases h

/-- Every offset of 16 bits has its immediate, also across the wrap of the 30 bits. -/
theorem beqLabel_add_ofInt (here : WordAddr) {off : Int} (hlo : -32768 ≤ off) (hhi : off ≤ 32767) :
    beqLabel (here + BitVec.ofInt 30 off) here = some (BitVec.ofInt 16 off) := by
  have hdiff : here + BitVec.ofInt 30 off - here = BitVec.ofInt 30 off := add_sub_cancel_left ..
  have hoff : (BitVec.ofInt 30 off).toInt = off := BitVec.toInt_ofInt_eq_self (by decide) (by omega) (by omega)
  rw [beqLabel, hdiff, hoff, if_pos ((simm16Ok_iff off).mpr ⟨hlo, hhi⟩), extractLsb'_ofInt]

/-- The immediate resolved for a label takes the branch to it. -/
theorem State.branchTarget_of_beqLabel {label : WordAddr} {imm : Imm16} (h : beqLabel label s.w = some imm) :
    s.branchTarget imm = label := by
  obtain ⟨hok, rfl⟩ := beqLabel_eq_some h
  rw [State.branchTarget, sext16to30_extractLsb'_of_simm16Ok hok]
  exact add_sub_cancel ..

/-! ## The address of a label in 26 bits (R53, R72) -/

/-- Where the high four bits agree, replacing the low 26 gives the label. -/
theorem replaceLow26_of_high_eq {t label : WordAddr} (h : t.extractLsb' 26 4 = label.extractLsb' 26 4) :
    replaceLow26 t (label.extractLsb' 0 26) = label := by
  rw [replaceLow26_eq_append, h]
  exact BitVec.extractLsb'_append_extractLsb'

/-- The field resolved for a label in reach takes the jump to it, under each `J_BASE`. -/
theorem State.jumpTarget_jLabel {label : WordAddr} (h : jReaches s.cfg.jBase s.psw s.w label = true) :
    s.jumpTarget (jLabel s.cfg.jBase s.psw label) = label := by
  cases hbase : s.cfg.jBase with
  | absolute =>
    rw [hbase] at h
    rw [State.jumpTarget_of_absolute _ hbase]
    exact replaceLow26_of_high_eq (beq_iff_eq.mp h)
  | imageRelative =>
    rw [hbase] at h
    have hlow : replaceLow26 s.fakePc (jLabel .imageRelative s.psw label) = label - s.psw :=
      replaceLow26_of_high_eq (beq_iff_eq.mp h)
    rw [State.jumpTarget_of_imageRelative _ hbase, hlow]
    exact add_sub_cancel ..

end Sys2Proof.Machine

namespace Sys2Proof.Claims

open Sys2Proof.Machine

/-- Settles O29: the row, and one PC write, taken (`State.toNat_branchTarget`) or not (`State.toNat_advance_w`). -/
theorem beqResult : Obligations.BeqResult := by
  refine ⟨rowMeans_of_mem_opcodeTable (row := opcodeTable[8]) (List.getElem_mem _), fun rs rt imm s => ?_⟩
  by_cases heq : s.x rs = s.x rt
  · exact ⟨_, exec_beq_of_eq heq imm, writesPcOnly_setW .., by rw [if_pos heq]; exact s.toNat_branchTarget imm⟩
  · exact ⟨_, exec_beq_of_ne heq imm, writesPcOnly_setW .., by rw [if_neg heq]; exact_mod_cast s.toNat_advance_w⟩

/-- Settles O43, by induction on the number of cycles (`State.cycles_of_finished`). -/
theorem finishedOnlyCounts : Obligations.FinishedOnlyCounts := fun _ n => State.cycles_of_finished n

/-- Settles O59: what is cut off a label in reach is what the branch and the jump put back. -/
theorem labelsResolve : Obligations.LabelsResolve :=
  ⟨fun _ _ _ => State.branchTarget_of_beqLabel, fun here _ => beqLabel_add_ofInt here, fun _ _ => State.jumpTarget_jLabel⟩

end Sys2Proof.Claims
end


section
/-!
PROOFS. The PC's byte address (O12), the past-end advance (O40), that every cycle completes (O41), and the silent outcome of every anomaly
(O46), by 10_state.md rule R15, 45_step_and_pc_update.md rules R77 and R87 and 60_exceptions.md rule R83. Outside the image nothing is
fetched (`State.fetch_eq_none_of_le`), and the cycle is then the advance and the count.
-/

namespace Sys2Proof.Machine

/-! ## `fake_pc` as a number (R15) -/

theorem State.toNat_fakePc (s : State) : s.fakePc.toNat = (2 ^ 30 - s.psw.toNat + s.w.toNat) % 2 ^ 30 := BitVec.toNat_sub s.w s.psw

theorem State.toNat_pcByte (s : State) : s.pcByte.toNat = s.w.toNat * 4 := byteAddrOf_toNat s.w

/-- An aligned `PS` is four times `PSW`, so the wrap of `fake_pc` at 2^30 is that of the byte address at 2^32. -/
theorem State.toNat_pcByte_of_aligned {s : State} (h : s.ps.toNat % 4 = 0) :
    s.pcByte.toNat = (s.ps.toNat + s.fakePc.toNat * 4) % 2 ^ 32 := by
  have hpsw : s.psw.toNat = s.ps.toNat / 4 := wordAddrOf_toNat s.ps
  have hps : s.ps.toNat < 2 ^ 32 := s.ps.isLt
  have hw : s.w.toNat < 2 ^ 30 := s.w.isLt
  rw [State.toNat_pcByte, State.toNat_fakePc]
  omega

/-! ## Outside the image (R77) -/

variable {s : State}

theorem State.fetch_eq_none_of_le (h : s.psize ≤ s.fakePc.toNat) : s.fetch = none := List.getElem?_eq_none h

/-- For an image below the top of the address space, `fake_pc` past the end is the source's interval test on `W`. -/
theorem State.psize_le_fakePc_iff (h : s.psw.toNat + s.psize ≤ 2 ^ 30) :
    s.psize ≤ s.fakePc.toNat ↔ ¬ (s.psw.toNat ≤ s.w.toNat ∧ s.w.toNat < s.psw.toNat + s.psize) := by
  have hw : s.w.toNat < 2 ^ 30 := s.w.isLt
  rw [State.toNat_fakePc]
  omega

/-- A cycle with nothing to execute, outside the image or at an unlisted word, is the advance and the count (R76, R77). -/
theorem step_of_nothing_listed (h : ∀ inst, s.fetch = some inst → decode inst = .nopUnlisted) : step s = .next s.advance.tick := by
  cases hf : s.fetch with
  | none => exact step_of_past_end hf
  | some inst => exact step_of_unlisted hf (h inst hf)

/-! ## Signed sums and differences (R83) -/

variable (a b : Word)

theorem ofInt_emod (n : Int) : BitVec.ofInt 32 (n % 2 ^ 32) = BitVec.ofInt 32 n := by
  apply BitVec.eq_of_toNat_eq
  rw [BitVec.toNat_ofInt, BitVec.toNat_ofInt]
  omega

/-- The word sum is the exact signed sum modulo 2^32, also where that leaves the signed range. -/
theorem add_eq_ofInt_toInt_mod : a + b = BitVec.ofInt 32 ((a.toInt + b.toInt) % 2 ^ 32) := by
  rw [ofInt_emod, BitVec.ofInt_add, BitVec.ofInt_toInt, BitVec.ofInt_toInt]

/-- The word difference is the exact signed difference modulo 2^32: added to `b`, both give `a`. -/
theorem sub_eq_ofInt_toInt_mod : a - b = BitVec.ofInt 32 ((a.toInt - b.toInt) % 2 ^ 32) := by
  rw [ofInt_emod, BitVec.sub_eq_iff_eq_add]
  calc a
    _ = BitVec.ofInt 32 (a.toInt - b.toInt + b.toInt) := by rw [Int.sub_add_cancel, BitVec.ofInt_toInt]
    _ = BitVec.ofInt 32 (a.toInt - b.toInt) + b := by rw [BitVec.ofInt_add, BitVec.ofInt_toInt]

theorem add_sext16_eq_ofInt_toInt_mod (imm : Imm16) : a + sext16 imm = BitVec.ofInt 32 ((a.toInt + imm.toInt) % 2 ^ 32) := by
  rw [add_eq_ofInt_toInt_mod, sext16_toInt]

end Sys2Proof.Machine

namespace Sys2Proof.Claims

open Sys2Proof.Machine

/-- An instruction whose destination is r0 only advances (R13). -/
theorem exec_of_dest_zero {i : Instr} (h : destOf i = some 0) (s : State) : exec i s = .next s.advance := by
  obtain ⟨e, he⟩ := exists_hasEffect i s
  rw [he.exec_eq, Effect.apply_of_dest_zero (he.dest_eq.trans h)]

/-- A SW out of range only advances (R67). -/
theorem exec_sw_of_not_valid {s : State} {rs : Reg} {imm : Imm16} (h : s.mem.valid (s.ea rs imm) 4 = false) (rt : Reg) :
    exec (.sw rt rs imm) s = .next s.advance := by
  have hmem : s.memWrite (s.ea rs imm) (s.x rt) = s := congrArg s.withMem (Memory.setWord_of_not_valid h (s.x rt))
  exact congrArg (fun t => Host.Outcome.next t.advance) hmem

/-! ## The obligations -/

/-- Settles O12: both sides as numbers (`State.toNat_pcByte_of_aligned`). -/
theorem pcByteAddressFromFakePc : Obligations.PcByteAddressFromFakePc := fun _ => State.toNat_pcByte_of_aligned

/-- Settles O40: nothing is fetched from `PSIZE` on, which is everywhere for an empty image; and the interval test. -/
theorem pastEndAdvance : Obligations.PastEndAdvance :=
  ⟨fun _ hout => step_of_past_end (State.fetch_eq_none_of_le hout),
    fun s hempty => step_of_past_end (State.fetch_eq_none_of_le (hempty ▸ Nat.zero_le s.fakePc.toNat)),
    fun _ => State.psize_le_fakePc_iff⟩

/-- Settles O41: `step` answers the state that `cycle` leaves, and one cycle counts one. -/
theorem everyCycleCompletes : Obligations.EveryCycleCompletes :=
  fun s => ⟨s.cycle, step_eq_next_cycle s, rfl, (countsCycles_cycle s).icount_eq⟩

/-- Settles O46, one row of R83's table after the other: LW and SW out of range, LW and SW misaligned, the three sums, the word that is not
executed, the write to r0. Neither the alignment nor the signed range is looked at. -/
theorem anomaliesAreSilent : Obligations.AnomaliesAreSilent := by
  refine ⟨fun rt rs imm s hout => ?_, fun rt rs imm s hout => ?_, fun rt rs imm s _ hvalid => ?_, fun rt rs imm s _ hvalid => ?_,
    fun rd rs rt s _ => ?_, fun rd rs rt s _ => ?_, fun rt rs imm s _ => ?_, fun s hnop => ?_, fun i s hi => ?_⟩
  · exact exec_writesRegister rfl (Memory.getWordUnsigned_of_not_valid hout)
  · exact exec_sw_of_not_valid hout rt
  · exact exec_writesRegister rfl (Memory.getWordUnsigned_of_valid hvalid)
  · obtain ⟨t, hexec, hregs, hcontrol, hw, hmem⟩ := exec_sw_writesWord rt rs imm s
    refine ⟨t, hexec, hregs, hcontrol, hw, fun c => ?_⟩
    rw [hmem, Memory.byteAt_setWord]
    simp only [hvalid, true_and]
  · exact exec_writesRegister rfl (add_eq_ofInt_toInt_mod ..)
  · exact exec_writesRegister rfl (sub_eq_ofInt_toInt_mod ..)
  · exact exec_writesRegister rfl (add_sext16_eq_ofInt_toInt_mod ..)
  · exact step_of_nothing_listed hnop
  · exact exec_of_dest_zero hi s

end Sys2Proof.Claims
end


section
/-!
PROOFS. The host's control surface: the PC (O13), errors (O47), the registers (O48), `step` (O50), `load` (O51), `run` and `stop` (O53) and
the driver's loop (O54), by 10_state.md rule R17, 45_step_and_pc_update.md rule R80, 60_exceptions.md rules R84 to R100 and
70_reset_and_hazards.md rules R102 to R108.
-/

namespace Sys2Proof.Machine

variable {s : State}

/-! ## The register calls (R97) -/

theorem State.getRegister_of_regOk (s : State) {i : Nat} (h : regOk i = true) :
    s.getRegister i = (.word (s.x (BitVec.ofNat 5 i)), s) := by
  simp [State.getRegister, h]

theorem State.getRegister_of_not_regOk (s : State) {i : Nat} (h : ¬ regOk i = true) :
    s.getRegister i = (.error .badRegisterIndex, s) := by
  simp [State.getRegister, h]

theorem not_regOk_of_le {i : Nat} (h : 32 ≤ i) : ¬ regOk i = true := by
  simpa [regOk] using h

/-- An index that is a register's number names that register. -/
theorem ofNat_toNat_reg (r : Reg) : BitVec.ofNat 5 r.toNat = r := by
  rw [BitVec.ofNat_toNat, BitVec.setWidth_eq]

/-! ## The checks of `load`, in their order (R102) -/

variable {src : Source} {start : Word} {bytes : List Byte}

theorem State.load_of_error {e : CallError} (h : loadCheck src start = .error e) : s.load src start = (.error e, s) := by
  simp [State.load, h]

theorem State.load_of_ok (h : loadCheck src start = .ok bytes) : s.load src start = (.done, s.replaceImage bytes start) := by
  simp [State.load, h]

theorem loadCheck_of_misaligned (h : start.toNat % 4 ≠ 0) : loadCheck src start = .error .misalignedStart := by
  simp [loadCheck, h]

theorem loadCheck_of_unreadable (h : start.toNat % 4 = 0) (hread : src.read = none) :
    loadCheck src start = .error .unreadable := by
  simp [loadCheck, h, hread]

/-- With an aligned start and a readable source, the length decides. -/
theorem loadCheck_of_read (h : start.toNat % 4 = 0) (hread : src.read = some bytes) :
    loadCheck src start =
      if bytes.length % 4 ≠ 0 then .error .truncatedImage
      else if bytes.length / 4 > 2 ^ 30 then .error .imageTooLarge
      else .ok bytes := by
  simp [loadCheck, h, hread]

/-- The image after a load has one word per four bytes (R103). -/
theorem State.psize_replaceImage (s : State) (bytes : List Byte) (start : Word) :
    (s.replaceImage bytes start).psize = bytes.length / 4 := imageDecode_length s.cfg.hostOrder bytes

/-- A load leaves the PC at the image's first word (R102). -/
theorem State.fakePc_replaceImage (s : State) (bytes : List Byte) (start : Word) :
    (s.replaceImage bytes start).fakePc = 0#30 := BitVec.sub_self (wordAddrOf start)

/-! ## Cycles compose (R80) -/

theorem State.cycles_add (m n : Nat) (s : State) : State.cycles (m + n) s = State.cycles n (State.cycles m s) := by
  induction m generalizing s with
  | zero => rw [Nat.zero_add, State.cycles_zero]
  | succ m ih => rw [Nat.add_right_comm, State.cycles_succ, State.cycles_succ, ih]

/-! ## A stop in two halves (R106, R107) -/

/-- A request and the next boundary leave what `stop` leaves, whether the clock runs or not. -/
theorem State.driverIteration_requestStop (s : State) : s.requestStop.driverIteration = s.stop.2 := by
  cases hclk : s.clk with
  | stopped => rw [State.requestStop_of_stopped hclk, State.driverIteration_of_stopped hclk, State.stop_of_stopped hclk]
  | running =>
    have hpending : s.requestStop.clk = .running ∧ s.requestStop.stopReq = true := by
      rw [State.requestStop_of_running hclk]
      exact ⟨hclk, rfl⟩
    rw [State.driverIteration_of_running hpending.left, if_pos hpending.right, State.stop_of_running hclk]

end Sys2Proof.Machine

namespace Sys2Proof.Claims

open Sys2Proof.Machine

/-! ## Error replies (R84) -/

/-- A call's result with the state `s` before the call: an error reply comes with that state. -/
def SilentOnError (s : State) (r : Reply × State) : Prop := ∀ (e : CallError) (t : State), r = (.error e, t) → t = s

variable (s : State)

/-- A result that leaves the state as it was. -/
theorem SilentOnError.of_state_eq {s : State} {r : Reply × State} (h : r.2 = s) : SilentOnError s r := by
  rintro e t rfl
  exact h

/-- A result whose reply is no error. -/
theorem SilentOnError.of_ne {s : State} {r : Reply × State} (h : ∀ e, r.1 ≠ .error e) : SilentOnError s r := by
  rintro e t rfl
  exact absurd rfl (h e)

theorem silentOnError_load (src : Source) (start : Word) : SilentOnError s (s.load src start) := by
  obtain ⟨e, -, h⟩ | ⟨bytes, -, h⟩ := s.load_cases src start
  · exact .of_state_eq (by rw [h])
  · exact .of_ne (by simp [h])

theorem silentOnError_stepCall (count : BitVec 32) : SilentOnError s (s.stepCall count) := by
  cases hclk : s.clk with
  | stopped => exact .of_ne (by simp [State.stepCall_of_stopped hclk])
  | running => exact .of_state_eq (by rw [State.stepCall_of_running hclk])

theorem silentOnError_run (f : BitVec 32) : SilentOnError s (s.run f) := by
  by_cases hf : f = 0#32
  · exact .of_state_eq (by rw [hf, State.run_zero])
  · exact .of_ne (by simp [State.run_of_ne_zero s hf])

theorem silentOnError_stop : SilentOnError s s.stop := by
  cases hclk : s.clk with
  | stopped => exact .of_state_eq (by rw [State.stop_of_stopped hclk])
  | running => exact .of_ne (by simp [State.stop_of_running hclk])

theorem silentOnError_setRegister (i : Nat) (v : Word) : SilentOnError s (s.setRegister i v) := by
  by_cases hi : regOk i = true
  · exact .of_ne (by simp [State.setRegister_of_regOk s hi])
  · exact .of_state_eq (by rw [State.setRegister_of_not_regOk s hi])

/-- Every host call, one arm per call (R96). -/
theorem silentOnError_call : ∀ c : HostCall, SilentOnError s (s.call c)
  | .load src start => silentOnError_load s src start
  | .step count => silentOnError_stepCall s count
  | .run frequency => silentOnError_run s frequency
  | .stop => silentOnError_stop s
  | .getRegister i => .of_state_eq (s.getRegister_snd i)
  | .setRegister i v => silentOnError_setRegister s i v
  | .getPc | .getMemory _ => .of_state_eq rfl
  | .setPc _ | .setMemory _ _ => .of_ne nofun

/-! ## The obligations -/

/-- Settles O13: the byte address is four times `W`, and dropping its low two bits gives `W` back (`wordAddrOf_byteAddrOf`). -/
theorem hostPcAccess : Obligations.HostPcAccess := by
  refine ⟨fun s => ⟨s.pcByte, rfl, s.toNat_pcByte⟩, fun s b => ⟨s.setW (wordAddrOf b), rfl, wordAddrOf_toNat b, rfl⟩, fun s v h => ?_⟩
  obtain rfl : s.pcByte = v := Reply.word.inj h
  exact congrArg s.setW (wordAddrOf_byteAddrOf s.w)

/-- Settles O47, call by call (`silentOnError_call`). -/
theorem errorsChangeNothing : Obligations.ErrorsChangeNothing := fun c s t e => silentOnError_call s c e t

/-- Settles O48: the two calls for a register's own number, and for an index past the last. -/
theorem hostRegisterAccess : Obligations.HostRegisterAccess := by
  refine ⟨fun s r v => ⟨?_, ?_⟩, fun s i v hi => ⟨?_, ?_⟩⟩
  · exact (s.getRegister_of_regOk (regOk_toNat r)).trans (by rw [ofNat_toNat_reg])
  · exact (s.setRegister_of_regOk (regOk_toNat r) v).trans (by rw [ofNat_toNat_reg])
  · exact s.getRegister_of_not_regOk (not_regOk_of_le hi)
  · exact s.setRegister_of_not_regOk (not_regOk_of_le hi) v

/-- Settles O50: `step` in each clock state, no cycle for 0, and cycles one after the other (`State.cycles_add`). -/
theorem hostStepCall : Obligations.HostStepCall :=
  ⟨fun _ count hrun => State.stepCall_of_running hrun count, fun _ count hstop => State.stepCall_of_stopped hstop count,
    fun _ hstop => State.stepCall_of_stopped hstop 0, State.cycles_add⟩

/-- Settles O51: each check where those before it pass, and the replacement where all pass. -/
theorem loadValidatesThenReplaces : Obligations.LoadValidatesThenReplaces := by
  intro s src start
  refine ⟨fun halign => ?_, fun halign hread => ?_, fun bytes halign hread hlen => ?_, fun bytes halign hread hlen hbig => ?_,
    fun bytes halign hread hlen hsize => ?_⟩
  · exact State.load_of_error (loadCheck_of_misaligned halign)
  · exact State.load_of_error (loadCheck_of_unreadable halign hread)
  · have hcheck : loadCheck src start = .error .truncatedImage := by rw [loadCheck_of_read halign hread, if_pos hlen]
    exact State.load_of_error hcheck
  · have hcheck : loadCheck src start = .error .imageTooLarge := by
      rw [loadCheck_of_read halign hread, if_neg (not_not.mpr hlen), if_pos hbig]
    exact State.load_of_error hcheck
  · have hcheck : loadCheck src start = .ok bytes := by
      rw [loadCheck_of_read halign hread, if_neg (not_not.mpr hlen), if_neg (Nat.not_lt.mpr hsize)]
    exact ⟨s.replaceImage bytes start, State.load_of_ok hcheck, rfl, rfl, s.psize_replaceImage bytes start, wordAddrOf_toNat start,
      s.fakePc_replaceImage bytes start, rfl, rfl, rfl, fun r => s.x_replaceImage bytes start r, rfl, rfl, rfl⟩

/-- Settles O53: `run` for a frequency of 0 and for any other, `stop` in each clock state. -/
theorem clockStateMachine : Obligations.ClockStateMachine := by
  refine ⟨State.run_zero, State.run_of_ne_zero, fun s hrun => ?_, fun s hstop => State.stop_of_stopped hstop⟩
  exact (State.stop_of_running hrun).trans (by rw [State.requestStop_of_running hrun]; rfl)

/-- Settles O54: the iteration's three cases, and a stop in two halves (`State.driverIteration_requestStop`). -/
theorem driverLoop : Obligations.DriverLoop := by
  refine ⟨fun s => State.driverIteration_of_stopped, fun s hrun hpending => ?_, fun s hrun hnone => ?_,
    State.driverIteration_requestStop⟩
  · rw [State.driverIteration_of_running hrun, if_pos hpending]
    rfl
  · rw [State.driverIteration_of_running hrun, if_neg (Bool.eq_false_iff.mp hnone)]
    exact ⟨step_eq_next_cycle s, (countsCycles_cycle s).clk_eq.trans hrun⟩

end Sys2Proof.Claims
end


section
/-!
PROOFS. The state after construction (O14) and its legality (O15), by 10_state.md rule R23 and 70_reset_and_hazards.md rule R101.
-/

namespace Sys2Proof.Machine

variable (cfg : CoreConfig) (g : Vector Word 32) (supply : MemorySupply)

/-- r1 to r31 are as INIT_GPR gives them (R23). -/
theorem State.x_construct_of_ne_zero {r : Reg} (h : r ≠ 0#5) : (State.construct cfg g supply).x r = g[r.toNat]'(r.isLt) := by
  have hne : 0 ≠ r.toNat := fun h0 => h (BitVec.eq_of_toNat_eq h0.symm)
  rw [State.x, if_neg h]
  exact Vector.getElem_set_ne (by omega) r.isLt hne

/-- With no image nothing is fetched (R23, R77). -/
theorem State.fetch_construct : (State.construct cfg g supply).fetch = none := List.getElem?_nil

/-- Construction with a Memory of its own of at most 2^32 bytes is legal: a fresh Memory has no byte listed, and the clock is stopped. -/
theorem State.construct_inv {mc : MemConfig} (hsize : mc.size ≤ 2 ^ 32) : (State.construct cfg g (.own mc)).Inv :=
  ⟨Vector.getElem_set_self (by decide), rfl, Nat.zero_le _, Memory.fresh_wf mc, rfl, hsize, nofun, nofun⟩

/-- Reset is construction at the reference parameters, which have r0's 0 already. -/
theorem State.reset_eq_construct :
    State.reset = State.construct CoreConfig.reference initGprReference (.own MemConfig.reference) := by
  have hgpr : initGprReference.set 0 0 = initGprReference := by decide
  rw [State.construct, hgpr]
  rfl

end Sys2Proof.Machine

namespace Sys2Proof.Claims

open Sys2Proof.Machine

/-- Settles O14: R23's table, field by field. -/
theorem constructionValues : Obligations.ConstructionValues :=
  ⟨fun cfg g supply => ⟨State.x_zero _, fun _ => State.x_construct_of_ne_zero cfg g supply, rfl, rfl, rfl, rfl, rfl, rfl, rfl, rfl, rfl,
    State.fetch_construct cfg g supply⟩, fun _ _ _ _ => ⟨rfl, rfl⟩, fun _ _ _ => rfl⟩

/-- Settles O15: reset is the case of the reference parameters. -/
theorem resetIsLegal : Obligations.ResetIsLegal :=
  ⟨State.reset_eq_construct, State.reset_eq_construct ▸ State.construct_inv _ _ (by decide),
    fun cfg g _ => State.construct_inv cfg g⟩

end Sys2Proof.Claims
end
